-- ==== Sys2Proof/Word.lean ====
section
/-! DEFINITION. The words of the machine and the five widths every size of it is taken from. -/

namespace Sys2Proof

/-- A 32-bit bus word: the data of one window access, and the command word (R52, R80). -/
abbrev Word := BitVec 32

/-- The contents of a scalar register, 128 bits (R23). -/
abbrev Scalar := BitVec 128

/-- A byte offset in the 64 KiB register window (R50). -/
abbrev WindowAddr := BitVec 16

/-- The number of a matrix register, 0 to 15 (R21). -/
abbrev MReg := Fin 16

/-- The number of a scalar register, 0 to 15 (R23). -/
abbrev SReg := Fin 16

/-- The five widths of R5: the matrix dimension `W`, the working width `N` and the width `A` of the
dividend of MA.MODULO each take one of them. -/
inductive Width where
  | w8 | w16 | w32 | w64 | w128
  deriving DecidableEq, Repr

/-- A width as a number of bits (R5, R84). -/
def Width.bits : Width → Nat
  | .w8 => 8
  | .w16 => 16
  | .w32 => 32
  | .w64 => 64
  | .w128 => 128

end Sys2Proof
end

