-- ==== Sys2Proof/Syntax.lean ====
section
/-! DEFINITION. The seventeen commands of SRC-1 as syntax, one constructor per row of the opcode
table, and the fields of a command word before they are read as a command. -/

namespace Sys2Proof

/-- Whether the dividend of MA.MODULO is read in two's complement: the field `sg` (R81). -/
inductive Signedness where
  | unsigned | signed
  deriving DecidableEq, Repr

/-- A command (R83). The letters of the operands say the file they index: `m` a matrix register,
`s` a scalar register. A register number is never illegal (R87) and a width is one of five (R84), so
every term is a command of the hardware. -/
inductive Instr where
  /-- BM.NEW md (R130) -/
  | bmNew (md : MReg)
  /-- BM.ZERO md (R131) -/
  | bmZero (md : MReg)
  /-- BM.IDENT md (R132) -/
  | bmIdent (md : MReg)
  /-- BM.SHIFT md, sk (R133) -/
  | bmShift (md : MReg) (sk : SReg)
  /-- BM.APPLY sd, ma, sv (R134) -/
  | bmApply (sd : SReg) (ma : MReg) (sv : SReg)
  /-- BM.COMPOSE md, ma, mb (R135) -/
  | bmCompose (md ma mb : MReg)
  /-- BM.ADD md, ma, mb (R136) -/
  | bmAdd (md ma mb : MReg)
  /-- BM.AND md, ma, smask (R137) -/
  | bmAnd (md ma : MReg) (smask : SReg)
  /-- BM.SHL md, ma, sn (R138) -/
  | bmShl (md ma : MReg) (sn : SReg)
  /-- BM.SHR md, ma, sn (R139) -/
  | bmShr (md ma : MReg) (sn : SReg)
  /-- BM.POW md, ma, sn (R140) -/
  | bmPow (md ma : MReg) (sn : SReg)
  /-- BM.EQ sd, ma, mb (R141) -/
  | bmEq (sd : SReg) (ma mb : MReg)
  /-- MA.MULMOD.N sd, sa, sb, sm (R180) -/
  | maMulmod (n : Width) (sd sa sb sm : SReg)
  /-- MA.POWMOD.N sd, sbase, sn, sm (R181) -/
  | maPowmod (n : Width) (sd sbase sn sm : SReg)
  /-- MA.WPOW.N sd, sbase, sn (R182) -/
  | maWpow (n : Width) (sd sbase sn : SReg)
  /-- MA.WGEOM.N sd, sr, sn (R183) -/
  | maWgeom (n : Width) (sd sr sn : SReg)
  /-- MA.MODULO.N.gA sd, sa, sm (R184) -/
  | maModulo (n a : Width) (sg : Signedness) (sd sa sm : SReg)
  deriving DecidableEq, Repr

/-- The operation of a command: the rows of the opcode map (R83). -/
inductive Opcode where
  | bmNew | bmZero | bmIdent | bmShift | bmApply | bmCompose | bmAdd | bmAnd | bmShl | bmShr
  | bmPow | bmEq | maMulmod | maPowmod | maWpow | maWgeom | maModulo
  deriving DecidableEq, Repr

/-- The nine fields of a command word (R81), most significant first, with no reading put on them. -/
structure Fields where
  op : BitVec 6
  sz : BitVec 3
  asz : BitVec 3
  sg : BitVec 1
  z : BitVec 3
  rd : BitVec 4
  ra : BitVec 4
  rb : BitVec 4
  rc : BitVec 4
  deriving DecidableEq, Repr

/-- The pseudo-instruction BM.SQUARE md, ma: a second spelling of BM.COMPOSE (R91). -/
def Instr.bmSquare (md ma : MReg) : Instr := .bmCompose md ma ma

end Sys2Proof
end

