-- ==== Sys2Proof/WellFormed.lean ====
section
/-! DEFINITION. Which field contents make a legal command word: R82 and R86, written as conditions on
the fields, apart from the decoding procedure. A term of Instr is well formed by its type. -/

namespace Sys2Proof

/-- The six formats of R82. -/
inductive Format where
  | M0 | M1 | M2 | A2 | A3 | AM
  deriving DecidableEq, Repr

/-- The format of each command: the column `format` of R83. -/
def Opcode.format : Opcode → Format
  | .bmNew | .bmZero | .bmIdent => .M0
  | .bmShift => .M1
  | .bmApply | .bmCompose | .bmAdd | .bmAnd | .bmShl | .bmShr | .bmPow | .bmEq => .M2
  | .maMulmod | .maPowmod => .A3
  | .maWpow | .maWgeom => .A2
  | .maModulo => .AM

/-- Condition (a) of R86: `op` is one of the codes 0x01 to 0x0C and 0x10 to 0x14. -/
def Fields.opKnown (f : Fields) : Bool :=
  (0x01 ≤ f.op.toNat && f.op.toNat ≤ 0x0C) || (0x10 ≤ f.op.toNat && f.op.toNat ≤ 0x14)

/-- The format of an operation code (R82): 0x01 to 0x03 are M0, 0x04 is M1, 0x05 to 0x0C are M2, 0x10
and 0x11 are A3, 0x12 and 0x13 are A2, 0x14 is AM. Of an unknown code it says nothing that counts,
since condition (a) already fails. -/
def Fields.format (f : Fields) : Format :=
  let op := f.op.toNat
  if op ≤ 0x03 then .M0
  else if op ≤ 0x04 then .M1
  else if op ≤ 0x0C then .M2
  else if op ≤ 0x11 then .A3
  else if op ≤ 0x13 then .A2
  else .AM

/-- Condition (b) of R86: every field the format does not use is zero (R82). -/
def Fields.unusedZero (f : Fields) : Bool :=
  match f.format with
  | .M0 => f.sz = 0 && f.asz = 0 && f.sg = 0 && f.z = 0 && f.ra = 0 && f.rb = 0 && f.rc = 0
  | .M1 => f.sz = 0 && f.asz = 0 && f.sg = 0 && f.z = 0 && f.rb = 0 && f.rc = 0
  | .M2 => f.sz = 0 && f.asz = 0 && f.sg = 0 && f.z = 0 && f.rc = 0
  | .A2 => f.asz = 0 && f.sg = 0 && f.z = 0 && f.rc = 0
  | .A3 => f.asz = 0 && f.sg = 0 && f.z = 0
  | .AM => f.z = 0 && f.rc = 0

/-- Condition (c) of R86: a format that uses `sz` holds one of the codes 0 to 4. -/
def Fields.szDefined (f : Fields) : Bool :=
  match f.format with
  | .A2 | .A3 | .AM => f.sz.toNat ≤ 4
  | .M0 | .M1 | .M2 => true

/-- Condition (d) of R86: MA.MODULO holds one of the codes 0 to 4 in `asz`. -/
def Fields.aszDefined (f : Fields) : Bool :=
  match f.format with
  | .AM => f.asz.toNat ≤ 4
  | .M0 | .M1 | .M2 | .A2 | .A3 => true

/-- The fields of a legal command word: none of the four conditions of R86 is broken. -/
def Fields.wellFormed (f : Fields) : Bool :=
  f.opKnown && f.unusedZero && f.szDefined && f.aszDefined

end Sys2Proof
end

