-- ==== Sys2Proof/Decode.lean ====
section
/-! DEFINITION. Decoding a command word, total on all 2^32 words and rejecting by name (R88); the
encoder, from the same tables (R81 to R84); and the match and mask table of R83. -/

namespace Sys2Proof

/-- Why a word is illegal, one name for each condition of R86. Which name a word gets that breaks
several of them is the model's choice: the hardware does not record the reason (R201). Assumption
11. -/
inductive IllegalReason where
  /-- R86 (a) -/
  | unknownOp
  /-- R86 (b) -/
  | mustBeZero
  /-- R86 (c) -/
  | reservedSz
  /-- R86 (d) -/
  | reservedAsz
  deriving DecidableEq, Repr

/-- The fields of a word (R81). -/
def Fields.ofWord (cw : Word) : Fields where
  op := cw.extractLsb' 26 6
  sz := cw.extractLsb' 23 3
  asz := cw.extractLsb' 20 3
  sg := cw.extractLsb' 19 1
  z := cw.extractLsb' 16 3
  rd := cw.extractLsb' 12 4
  ra := cw.extractLsb' 8 4
  rb := cw.extractLsb' 4 4
  rc := cw.extractLsb' 0 4

/-- The word of nine fields (R81): each field at the weight of its lowest bit. -/
def Fields.toWord (f : Fields) : Word :=
  BitVec.ofNat 32
    (0x04000000 * f.op.toNat + 0x00800000 * f.sz.toNat + 0x00100000 * f.asz.toNat +
      0x00080000 * f.sg.toNat + 0x00010000 * f.z.toNat + 0x1000 * f.rd.toNat +
      0x100 * f.ra.toNat + 0x10 * f.rb.toNat + f.rc.toNat)

/-- The operation code of a command (R83). -/
def Opcode.code : Opcode → BitVec 6
  | .bmNew => 0x01
  | .bmZero => 0x02
  | .bmIdent => 0x03
  | .bmShift => 0x04
  | .bmApply => 0x05
  | .bmCompose => 0x06
  | .bmAdd => 0x07
  | .bmAnd => 0x08
  | .bmShl => 0x09
  | .bmShr => 0x0A
  | .bmPow => 0x0B
  | .bmEq => 0x0C
  | .maMulmod => 0x10
  | .maPowmod => 0x11
  | .maWpow => 0x12
  | .maWgeom => 0x13
  | .maModulo => 0x14

/-- The command of an operation code; none for the codes R83 calls illegal. -/
def Opcode.ofCode (op : BitVec 6) : Option Opcode :=
  match op.toNat with
  | 0x01 => some .bmNew
  | 0x02 => some .bmZero
  | 0x03 => some .bmIdent
  | 0x04 => some .bmShift
  | 0x05 => some .bmApply
  | 0x06 => some .bmCompose
  | 0x07 => some .bmAdd
  | 0x08 => some .bmAnd
  | 0x09 => some .bmShl
  | 0x0A => some .bmShr
  | 0x0B => some .bmPow
  | 0x0C => some .bmEq
  | 0x10 => some .maMulmod
  | 0x11 => some .maPowmod
  | 0x12 => some .maWpow
  | 0x13 => some .maWgeom
  | 0x14 => some .maModulo
  | _ => none

/-- The code of a width in `sz` and `asz` (R84). -/
def Width.code : Width → BitVec 3
  | .w8 => 0
  | .w16 => 1
  | .w32 => 2
  | .w64 => 3
  | .w128 => 4

/-- The width of a code; the codes 5, 6 and 7 are reserved (R84). -/
def Width.ofCode (c : BitVec 3) : Option Width :=
  match c.toNat with
  | 0 => some .w8
  | 1 => some .w16
  | 2 => some .w32
  | 3 => some .w64
  | 4 => some .w128
  | _ => none

/-- The code of `sg` (R81). -/
def Signedness.code : Signedness → BitVec 1
  | .unsigned => 0
  | .signed => 1

/-- The reading of `sg` (R81). -/
def Signedness.ofCode (c : BitVec 1) : Signedness :=
  if c = 1 then .signed else .unsigned

/-- A register field is a plain unsigned number (R81). -/
def registerOf (field : BitVec 4) : Fin 16 := field.toFin

/-- The field of a register number (R81). -/
def registerField (r : Fin 16) : BitVec 4 := BitVec.ofFin r

/-- Format M0 (R82): `rd`. -/
def decodeM0 (f : Fields) (mk : Fin 16 → Instr) : Except IllegalReason Instr :=
  if f.sz = 0 ∧ f.asz = 0 ∧ f.sg = 0 ∧ f.ra = 0 ∧ f.rb = 0 ∧ f.rc = 0 then
    .ok (mk (registerOf f.rd))
  else .error .mustBeZero

/-- Format M1 (R82): `rd`, `ra`. -/
def decodeM1 (f : Fields) (mk : Fin 16 → Fin 16 → Instr) : Except IllegalReason Instr :=
  if f.sz = 0 ∧ f.asz = 0 ∧ f.sg = 0 ∧ f.rb = 0 ∧ f.rc = 0 then
    .ok (mk (registerOf f.rd) (registerOf f.ra))
  else .error .mustBeZero

/-- Format M2 (R82): `rd`, `ra`, `rb`. -/
def decodeM2 (f : Fields) (mk : Fin 16 → Fin 16 → Fin 16 → Instr) : Except IllegalReason Instr :=
  if f.sz = 0 ∧ f.asz = 0 ∧ f.sg = 0 ∧ f.rc = 0 then
    .ok (mk (registerOf f.rd) (registerOf f.ra) (registerOf f.rb))
  else .error .mustBeZero

/-- Format A2 (R82): `sz`, `rd`, `ra`, `rb`. -/
def decodeA2 (f : Fields) (mk : Width → Fin 16 → Fin 16 → Fin 16 → Instr) :
    Except IllegalReason Instr :=
  if f.asz = 0 ∧ f.sg = 0 ∧ f.rc = 0 then
    match Width.ofCode f.sz with
    | some n => .ok (mk n (registerOf f.rd) (registerOf f.ra) (registerOf f.rb))
    | none => .error .reservedSz
  else .error .mustBeZero

/-- Format A3 (R82): `sz`, `rd`, `ra`, `rb`, `rc`. -/
def decodeA3 (f : Fields) (mk : Width → Fin 16 → Fin 16 → Fin 16 → Fin 16 → Instr) :
    Except IllegalReason Instr :=
  if f.asz = 0 ∧ f.sg = 0 then
    match Width.ofCode f.sz with
    | some n =>
      .ok (mk n (registerOf f.rd) (registerOf f.ra) (registerOf f.rb) (registerOf f.rc))
    | none => .error .reservedSz
  else .error .mustBeZero

/-- Format AM (R82): `sz`, `asz`, `sg`, `rd`, `ra`, `rb`. -/
def decodeAM (f : Fields)
    (mk : Width → Width → Signedness → Fin 16 → Fin 16 → Fin 16 → Instr) :
    Except IllegalReason Instr :=
  if f.rc = 0 then
    match Width.ofCode f.sz with
    | some n =>
      match Width.ofCode f.asz with
      | some a =>
        .ok (mk n a (Signedness.ofCode f.sg) (registerOf f.rd) (registerOf f.ra)
          (registerOf f.rb))
      | none => .error .reservedAsz
    | none => .error .reservedSz
  else .error .mustBeZero

/-- The command of nine fields, or why there is none (R88). -/
def decodeFields (f : Fields) : Except IllegalReason Instr :=
  if f.z = 0 then
    match Opcode.ofCode f.op with
    | some .bmNew => decodeM0 f .bmNew
    | some .bmZero => decodeM0 f .bmZero
    | some .bmIdent => decodeM0 f .bmIdent
    | some .bmShift => decodeM1 f .bmShift
    | some .bmApply => decodeM2 f .bmApply
    | some .bmCompose => decodeM2 f .bmCompose
    | some .bmAdd => decodeM2 f .bmAdd
    | some .bmAnd => decodeM2 f .bmAnd
    | some .bmShl => decodeM2 f .bmShl
    | some .bmShr => decodeM2 f .bmShr
    | some .bmPow => decodeM2 f .bmPow
    | some .bmEq => decodeM2 f .bmEq
    | some .maMulmod => decodeA3 f .maMulmod
    | some .maPowmod => decodeA3 f .maPowmod
    | some .maWpow => decodeA2 f .maWpow
    | some .maWgeom => decodeA2 f .maWgeom
    | some .maModulo => decodeAM f .maModulo
    | none => .error .unknownOp
  else .error .mustBeZero

/-- Decoding a command word: the 32 bits and nothing else, not even `W`, decide (R80, R88). -/
def decode (cw : Word) : Except IllegalReason Instr := decodeFields (Fields.ofWord cw)

/-- The operation of a command (R83). -/
def Instr.opcode : Instr → Opcode
  | .bmNew .. => .bmNew
  | .bmZero .. => .bmZero
  | .bmIdent .. => .bmIdent
  | .bmShift .. => .bmShift
  | .bmApply .. => .bmApply
  | .bmCompose .. => .bmCompose
  | .bmAdd .. => .bmAdd
  | .bmAnd .. => .bmAnd
  | .bmShl .. => .bmShl
  | .bmShr .. => .bmShr
  | .bmPow .. => .bmPow
  | .bmEq .. => .bmEq
  | .maMulmod .. => .maMulmod
  | .maPowmod .. => .maPowmod
  | .maWpow .. => .maWpow
  | .maWgeom .. => .maWgeom
  | .maModulo .. => .maModulo

/-- The fields of an operation with every other field zero: the start of each encoding (R82). -/
def Fields.blank (op : Opcode) : Fields where
  op := op.code
  sz := 0
  asz := 0
  sg := 0
  z := 0
  rd := 0
  ra := 0
  rb := 0
  rc := 0

/-- The fields of a command (R82, R83): the fields its format uses, all others zero. -/
def Instr.fields : Instr → Fields
  | .bmNew md => { Fields.blank .bmNew with rd := registerField md }
  | .bmZero md => { Fields.blank .bmZero with rd := registerField md }
  | .bmIdent md => { Fields.blank .bmIdent with rd := registerField md }
  | .bmShift md sk =>
    { Fields.blank .bmShift with rd := registerField md, ra := registerField sk }
  | .bmApply sd ma sv =>
    { Fields.blank .bmApply with
      rd := registerField sd, ra := registerField ma, rb := registerField sv }
  | .bmCompose md ma mb =>
    { Fields.blank .bmCompose with
      rd := registerField md, ra := registerField ma, rb := registerField mb }
  | .bmAdd md ma mb =>
    { Fields.blank .bmAdd with
      rd := registerField md, ra := registerField ma, rb := registerField mb }
  | .bmAnd md ma smask =>
    { Fields.blank .bmAnd with
      rd := registerField md, ra := registerField ma, rb := registerField smask }
  | .bmShl md ma sn =>
    { Fields.blank .bmShl with
      rd := registerField md, ra := registerField ma, rb := registerField sn }
  | .bmShr md ma sn =>
    { Fields.blank .bmShr with
      rd := registerField md, ra := registerField ma, rb := registerField sn }
  | .bmPow md ma sn =>
    { Fields.blank .bmPow with
      rd := registerField md, ra := registerField ma, rb := registerField sn }
  | .bmEq sd ma mb =>
    { Fields.blank .bmEq with
      rd := registerField sd, ra := registerField ma, rb := registerField mb }
  | .maMulmod n sd sa sb sm =>
    { Fields.blank .maMulmod with
      sz := n.code, rd := registerField sd, ra := registerField sa, rb := registerField sb,
      rc := registerField sm }
  | .maPowmod n sd sbase sn sm =>
    { Fields.blank .maPowmod with
      sz := n.code, rd := registerField sd, ra := registerField sbase, rb := registerField sn,
      rc := registerField sm }
  | .maWpow n sd sbase sn =>
    { Fields.blank .maWpow with
      sz := n.code, rd := registerField sd, ra := registerField sbase, rb := registerField sn }
  | .maWgeom n sd sr sn =>
    { Fields.blank .maWgeom with
      sz := n.code, rd := registerField sd, ra := registerField sr, rb := registerField sn }
  | .maModulo n a sg sd sa sm =>
    { Fields.blank .maModulo with
      sz := n.code, asz := a.code, sg := sg.code, rd := registerField sd,
      ra := registerField sa, rb := registerField sm }

/-- The word of a command (R81 to R84). -/
def encode (i : Instr) : Word := i.fields.toWord

/-- One row of the match and mask table of R83. -/
structure CommandRow where
  opcode : Opcode
  pattern : Word
  mask : Word
  /-- the row's further constraint asks `sz <= 4` -/
  limitsSz : Bool
  /-- the row's further constraint asks `asz <= 4` -/
  limitsAsz : Bool
  deriving DecidableEq, Repr

/-- The match and mask table of R83, row for row. -/
def commandTable : List CommandRow :=
  [⟨.bmNew, 0x04000000, 0xFFFF0FFF, false, false⟩,
   ⟨.bmZero, 0x08000000, 0xFFFF0FFF, false, false⟩,
   ⟨.bmIdent, 0x0C000000, 0xFFFF0FFF, false, false⟩,
   ⟨.bmShift, 0x10000000, 0xFFFF00FF, false, false⟩,
   ⟨.bmApply, 0x14000000, 0xFFFF000F, false, false⟩,
   ⟨.bmCompose, 0x18000000, 0xFFFF000F, false, false⟩,
   ⟨.bmAdd, 0x1C000000, 0xFFFF000F, false, false⟩,
   ⟨.bmAnd, 0x20000000, 0xFFFF000F, false, false⟩,
   ⟨.bmShl, 0x24000000, 0xFFFF000F, false, false⟩] ++
  [⟨.bmShr, 0x28000000, 0xFFFF000F, false, false⟩,
   ⟨.bmPow, 0x2C000000, 0xFFFF000F, false, false⟩,
   ⟨.bmEq, 0x30000000, 0xFFFF000F, false, false⟩,
   ⟨.maMulmod, 0x40000000, 0xFC7F0000, true, false⟩,
   ⟨.maPowmod, 0x44000000, 0xFC7F0000, true, false⟩,
   ⟨.maWpow, 0x48000000, 0xFC7F000F, true, false⟩,
   ⟨.maWgeom, 0x4C000000, 0xFC7F000F, true, false⟩,
   ⟨.maModulo, 0x50000000, 0xFC07000F, true, true⟩]

/-- A word is a row's command: it agrees with the row under its mask and meets the row's further
constraint (R83). -/
def CommandRow.admits (row : CommandRow) (cw : Word) : Bool :=
  cw &&& row.mask = row.pattern &&
  (!row.limitsSz || (cw.extractLsb' 23 3).toNat ≤ 4) &&
  (!row.limitsAsz || (cw.extractLsb' 20 3).toNat ≤ 4)

/-- The command of a row of the opcode table's word `w` of `nbits` bits, bit 0 the least significant
bit of the one command word (R80). -/
def decodeTableWord (nbits w : Nat) : Option Instr :=
  match decode (BitVec.ofNat 32 (w % 2 ^ nbits)) with
  | .ok i => some i
  | .error _ => none

end Sys2Proof
end

