-- ==== Sys2Proof/Config.lean ====
section
/-! DEFINITION. What an implementation fixes, and the free values of the model. -/

namespace Sys2Proof

/-- Number of scalar registers, field `NSR` of ID (R5, R27). -/
def Config.nsr : Nat := 16

/-- Number of matrix registers, field `NMR` of ID (R5, R27). -/
def Config.nmr : Nat := 16

/-- Version of the command set SRC-1, field `VER` of ID (R1, R27). -/
def Config.ver : Nat := 1

/-- The dimension of the reference hardware (R5); every other dimension is a value of the field
`width` of State. Assumption 1. -/
def Config.referenceWidth : Width := .w32

/-- FREE VALUE. What the reset numbered `n` leaves in scalar register `r`, which R33 calls
unspecified. Assumption 3. -/
opaque Config.resetScalar (n : Nat) (r : Nat) : Scalar

/-- FREE VALUE. What the reset numbered `n` leaves in column `i` of matrix register `r`, which R33
calls unspecified. Assumption 3. -/
opaque Config.resetColumn (w : Width) (n : Nat) (r : Nat) (i : Nat) : BitVec w.bits

/-- FREE VALUE. What the reset numbered `n` leaves in word `i` of COLBUF, which R33 calls
unspecified. Assumption 3. -/
opaque Config.resetStaged (w : Width) (n : Nat) (i : Nat) : BitVec w.bits

end Sys2Proof
end

