-- ==== Sys2Proof/Machine/Loop.lean ====
section
/-! DEFINITION. The square and multiply loop that `pow`, `pow_mod` and `wrapping_pow` share. -/

namespace Sys2Proof.Machine

/-- `bitlength` of R239: 0 for 0, else one more than the index of the highest set bit. -/
def bitLength (n : Nat) : Nat := if n = 0 then 0 else n.log2 + 1

/-- The loop of R118, R164 and R165: while the exponent `e` is not zero, multiply `result` by `base`
if the low bit of `e` is set, halve `e`, and square `base` unless that was the last round. The first
argument bounds the rounds; `bitLength e` of them are always enough (R239). Assumption 9. -/
def squaringLoop {α : Type} (mul : α → α → α) : Nat → Nat → α → α → α
  | 0, _, result, _ => result
  | rounds + 1, e, result, base =>
    if e = 0 then result
    else
      squaringLoop mul rounds (e / 2)
        (if e % 2 = 1 then mul result base else result)
        (if e / 2 = 0 then base else mul base base)

/-- Repeated squaring from `one`: the whole of the loop for exponent `n`. -/
def powerBySquaring {α : Type} (mul : α → α → α) (one base : α) (n : Nat) : α :=
  squaringLoop mul (bitLength n) n one base

end Sys2Proof.Machine
end

