-- ==== Sys2Proof/Machine/BitMatrix.lean ====
section
/-! DEFINITION. The bit matrices and the functions of the bit-matrix unit (R110 to R119), for every
dimension `W`. -/

namespace Sys2Proof.Machine

/-- A bit matrix: W columns of W bits, column `i` the image of basis vector `i` (R110). Every list
of columns is one. -/
structure BitMatrix (W : Nat) where
  cols : Vector (BitVec W) W
  deriving DecidableEq, Repr

/-- Column `i` (R110); there is none for `i >= W`, which reads 0 so that the function is total. -/
def BitMatrix.col {W : Nat} (M : BitMatrix W) (i : Nat) : BitVec W :=
  if h : i < W then M.cols[i] else 0#W

/-- The matrix whose column `i` is `f i`. -/
def BitMatrix.ofCols {W : Nat} (f : Nat → BitVec W) : BitMatrix W :=
  ⟨Vector.ofFn fun i => f i.val⟩

/-- `a << n` on W-bit words: 0 for a count of W or more (R7). -/
def shiftLeftWord {W : Nat} (a : BitVec W) (n : Nat) : BitVec W :=
  if W ≤ n then 0#W else a <<< n

/-- `a >> n` on W-bit words, logical: 0 for a count of W or more (R7). -/
def shiftRightWord {W : Nat} (a : BitVec W) (n : Nat) : BitVec W :=
  if W ≤ n then 0#W else a >>> n

/-- `x << k` for `k >= 0` and `x >> (-k)` for `k < 0` (R112). -/
def shiftWord {W : Nat} (a : BitVec W) (k : Int) : BitVec W :=
  if 0 ≤ k then shiftLeftWord a k.toNat else shiftRightWord a (-k).toNat

/-- The `i`-th standard basis vector (R110). -/
def basisVector (W : Nat) (i : Nat) : BitVec W := shiftLeftWord 1#W i

/-- `new(columns)`: no validation (R111). -/
def BitMatrix.new {W : Nat} (columns : Vector (BitVec W) W) : BitMatrix W := ⟨columns⟩

/-- `zero()` (R111). -/
def BitMatrix.zero (W : Nat) : BitMatrix W := .ofCols fun _ => 0#W

/-- `identity()` (R111). -/
def BitMatrix.identity (W : Nat) : BitMatrix W := .ofCols fun i => basisVector W i

/-- `shift(k)` for a `k` of either sign (R112). -/
def BitMatrix.shift (W : Nat) (k : Int) : BitMatrix W :=
  .ofCols fun i => shiftWord (basisVector W i) k

/-- The loop of R113 over the bits below `n`. -/
def BitMatrix.applyBelow {W : Nat} (M : BitMatrix W) (v : BitVec W) : Nat → BitVec W
  | 0 => 0#W
  | n + 1 =>
    if v.getLsbD n then M.applyBelow v n ^^^ M.col n else M.applyBelow v n

/-- `apply(M, v)`: the XOR of the columns whose bit of `v` is set (R113). -/
def BitMatrix.apply {W : Nat} (M : BitMatrix W) (v : BitVec W) : BitVec W := M.applyBelow v W

/-- `compose(A, B)`: `B` is applied first (R114). -/
def BitMatrix.compose {W : Nat} (A B : BitMatrix W) : BitMatrix W :=
  .ofCols fun i => A.apply (B.col i)

/-- `add(A, B)`: column-wise XOR (R115). -/
def BitMatrix.add {W : Nat} (A B : BitMatrix W) : BitMatrix W :=
  .ofCols fun i => A.col i ^^^ B.col i

/-- `bitand(A, mask)`: column-wise AND (R116). -/
def BitMatrix.bitand {W : Nat} (A : BitMatrix W) (mask : BitVec W) : BitMatrix W :=
  .ofCols fun i => A.col i &&& mask

/-- `shl(A, n)`: every column shifted left (R117). -/
def BitMatrix.shl {W : Nat} (A : BitMatrix W) (n : Nat) : BitMatrix W :=
  .ofCols fun i => shiftLeftWord (A.col i) n

/-- `shr(A, n)`: every column shifted right (R117). -/
def BitMatrix.shr {W : Nat} (A : BitMatrix W) (n : Nat) : BitMatrix W :=
  .ofCols fun i => shiftRightWord (A.col i) n

/-- `pow(M, n)` by repeated squaring, `result *= base` as `compose(result, base)` (R118). -/
def BitMatrix.pow {W : Nat} (M : BitMatrix W) (n : Nat) : BitMatrix W :=
  powerBySquaring BitMatrix.compose (BitMatrix.identity W) M n

/-- `M` composed with itself `n` times, the function R118 says the loop computes. No command calls
it. -/
def BitMatrix.iterate {W : Nat} (M : BitMatrix W) : Nat → BitMatrix W
  | 0 => BitMatrix.identity W
  | n + 1 => M.compose (M.iterate n)

/-- `eq(A, B)`: all columns equal (R119). -/
def BitMatrix.eq {W : Nat} (A B : BitMatrix W) : Bool :=
  (List.range W).all fun i => A.col i == B.col i

end Sys2Proof.Machine
end

