-- ==== Sys2Proof/Machine/State.lean ====
section
/-! DEFINITION. The state of the machine as plain data, the ways a step can stop, and the state after
reset. -/

namespace Sys2Proof.Machine

/-- Why a step stops with a fault. Not a fault of the hardware: its only recorded event is
IllegalCommand, a next state (R201, R215). -/
inductive Fault where
  /-- Raised by MA.MULMOD, MA.POWMOD and MA.MODULO when the modulus operand reads as 0, which R170
  leaves undefined altogether, whether the command completes included. SAFE: nothing is claimed of
  such a run (U1). Assumption 6. -/
  | zeroModulus
  deriving DecidableEq, Repr

/-- Why a step refuses. -/
inductive Refusal where
  /-- Raised by an arm of exec whose command has no meaning yet. SAFE. No arm raises it now. -/
  | notModelled (mnemonic : String)
  deriving DecidableEq, Repr

/-- The shape of a host access: a single access of some width in bits, or a burst (R52). -/
inductive AccessSize where
  | bits (n : Nat)
  | burst
  deriving DecidableEq, Repr

/-- What reaches the core from outside: the host's transactions (R10) and the platform's reset
(R230). -/
inductive HostEvent where
  /-- a read of the window -/
  | read (size : AccessSize) (addr : WindowAddr)
  /-- a write of the window; only a 32-bit write has data that anything looks at (R52) -/
  | write (size : AccessSize) (addr : WindowAddr) (data : Word)
  /-- a reset, between two transactions (none), or in the middle of the write of a command word to
  CMD, which is then abandoned (R230) -/
  | reset (abandoned : Option Word)
  deriving DecidableEq, Repr

/-- The response to a transaction (R52). -/
inductive Response where
  /-- OKAY to a write -/
  | okay
  /-- OKAY(v) to a read -/
  | okayData (v : Word)
  /-- ERROR -/
  | error
  deriving DecidableEq, Repr

/-- The state. The first six fields are the architectural state of R20; ID is a constant computed
from `width` (R27), STATUS has the one stored bit `ill` (R28, U10), and CMD stores nothing (R29).
The last three fields are the MODEL's own: the host's side of the port, and the counter that the
free values of a reset are taken at. Assumptions 3, 4 and 5. -/
structure State where
  /-- the matrix dimension `W`, a constant of the hardware (R5); no step changes it -/
  width : Width
  /-- the matrix registers (R21) -/
  mr : Vector (BitMatrix width.bits) 16
  /-- the scalar registers (R23) -/
  sr : Vector Scalar 16
  /-- the column staging buffer (R24) -/
  colbuf : Vector (BitVec width.bits) width.bits
  /-- STATUS.ILL (R28) -/
  ill : Bool
  /-- FCMD (R30) -/
  fcmd : Word
  /-- MODEL's own: the events still to come, the next one first (R60) -/
  inbox : List HostEvent
  /-- MODEL's own: the responses given, the oldest first -/
  outbox : List Response
  /-- MODEL's own: how many resets the run has seen, so that each leaves its own unspecified values
  (U3) -/
  resets : Nat
  deriving DecidableEq, Repr

/-- The state after a reset that left the given contents in the registers R33 calls unspecified, for
hardware of any dimension. -/
def State.resetWith (w : Width) (mr : Vector (BitMatrix w.bits) 16) (sr : Vector Scalar 16)
    (colbuf : Vector (BitVec w.bits) w.bits) : State where
  width := w
  mr := mr
  sr := sr
  colbuf := colbuf
  ill := false
  fcmd := 0
  inbox := []
  outbox := []
  resets := 0

/-- The state right after reset (R33): the reference hardware (assumption 1), and 0 in the registers
whose value R33 calls unspecified (assumption 2: DESIGN CHOICE, unsafe). -/
def State.reset : State :=
  .resetWith Config.referenceWidth (Vector.replicate 16 (BitMatrix.zero _))
    (Vector.replicate 16 0) (Vector.replicate _ 0)

end Sys2Proof.Machine
end

