-- ==== Sys2Proof/Machine/Ops.lean ====
section
/-! DEFINITION. The named operations on the state: the register files, the words of a 128-bit slot,
recording an illegal command and acknowledging it, the port, and reset. -/

namespace Sys2Proof.Machine

/-- `SR[r]` (R23). -/
def State.getSR (s : State) (r : SReg) : Scalar := s.sr[r.val]

/-- `SR[r] <- v`, all 128 bits (R23, R234). -/
def State.setSR (s : State) (r : SReg) (v : Scalar) : State :=
  { s with sr := s.sr.set r.val v }

/-- `MR[r]` (R21). -/
def State.getMR (s : State) (r : MReg) : BitMatrix s.width.bits := s.mr[r.val]

/-- `MR[r] <- M`, all W columns at once (R22). -/
def State.setMR (s : State) (r : MReg) (M : BitMatrix s.width.bits) : State :=
  { s with mr := s.mr.set r.val M }

/-- `COLBUF[i]` (R24). -/
def State.getColbuf (s : State) (i : Fin s.width.bits) : BitVec s.width.bits := s.colbuf[i.val]

/-- `COLBUF[i] <- v` (R24). -/
def State.setColbuf (s : State) (i : Fin s.width.bits) (v : BitVec s.width.bits) : State :=
  { s with colbuf := s.colbuf.set i.val v }

/-- Column `i` of `MR[r]` as its 128-bit slot of the window shows it (R53, R56). -/
def State.mrSlot (s : State) (r : MReg) (i : Nat) : BitVec 128 :=
  ((s.getMR r).col i).setWidth 128

/-- Word `i` of COLBUF as its 128-bit slot of the window shows it (R53, R55). -/
def State.colbufSlot (s : State) (i : Nat) : BitVec 128 :=
  ((BitMatrix.new s.colbuf).col i).setWidth 128

/-- Word `j` of a slot that holds the `W`-bit value `c`: its bits `hi` down to `lo`, zero-extended,
and 0 where the word lies wholly above the value (R53 to R56). -/
def slotWord {W : Nat} (c : BitVec W) (j : Fin 4) : Word :=
  let lo := 32 * j.val
  if W ≤ lo then 0
  else
    let hi := min (lo + 31) (W - 1)
    (c.extractLsb' lo (hi - lo + 1)).setWidth 32

/-- Word `j` of a slot written: bits `hi` down to `lo` of the value become the low bits of `v`, the
others stay, and nothing changes where the word lies wholly above the value (R54, R55). -/
def setSlotWord {W : Nat} (c : BitVec W) (j : Fin 4) (v : Word) : BitVec W :=
  let lo := 32 * j.val
  if W ≤ lo then c
  else (c &&& ~~~((0xFFFFFFFF#32).setWidth W <<< lo)) ||| (v.setWidth W <<< lo)

/-- `raise IllegalCommand(cw)`: the one recorded fault of the hardware, all of its entry but for the
response (R201, R206). -/
def State.raiseIllegal (s : State) (cw : Word) : State := { s with ill := true, fcmd := cw }

/-- The acknowledgement of a recorded fault, a write of `v` to STATUS: bit 0 of `v` set clears ILL,
clear changes nothing (R206). -/
def State.acknowledge (s : State) (v : Word) : State :=
  { s with ill := s.ill && !v.getLsbD 0 }

/-- The response to the transaction under way (R52). -/
def State.respond (s : State) (r : Response) : State := { s with outbox := s.outbox ++ [r] }

/-- Reset (R230, R33): STATUS and FCMD become 0, and the data registers hold what the reset leaves,
a free value for each (U3). -/
def State.applyReset (s : State) : State :=
  { s with
    mr := Vector.ofFn fun r => .ofCols fun i => Config.resetColumn s.width s.resets r.val i
    sr := Vector.ofFn fun r => Config.resetScalar s.resets r.val
    colbuf := Vector.ofFn fun i => Config.resetStaged s.width s.resets i.val
    ill := false
    fcmd := 0
    resets := s.resets + 1 }

end Sys2Proof.Machine
end

