-- ==== Sys2Proof/Machine/Operands.lean ====
section
/-! DEFINITION. How a scalar operand of each kind is taken from its register and a scalar result put
into one (R85), and which registers a command names (R83). -/

namespace Sys2Proof.Machine

/-- A vector or a mask of the bit-matrix unit: `SR[r][W-1:0]` (R85). -/
def State.vectorOperand (s : State) (r : SReg) : BitVec s.width.bits :=
  (s.getSR r).setWidth s.width.bits

/-- An operand or a modulus of the modular unit: `u(SR[r][N-1:0])` (R85). -/
def State.modularOperand (s : State) (n : Width) (r : SReg) : Nat :=
  ((s.getSR r).setWidth n.bits).toNat

/-- An exponent, a term count, or the count of BM.SHL and BM.SHR: `u(SR[r][127:0])` (R85). -/
def State.countOperand (s : State) (r : SReg) : Nat := (s.getSR r).toNat

/-- The amount of BM.SHIFT: `s_128(SR[r][127:0])` (R85). -/
def State.shiftOperand (s : State) (r : SReg) : Int := (s.getSR r).toInt

/-- The dividend of MA.MODULO: `u(SR[r][A-1:0])` or `s_A(SR[r][A-1:0])` (R85). -/
def State.dividendOperand (s : State) (a : Width) (sg : Signedness) (r : SReg) : Int :=
  match sg with
  | .unsigned => (((s.getSR r).setWidth a.bits).toNat : Int)
  | .signed => ((s.getSR r).setWidth a.bits).toInt

/-- A result of the bit-matrix unit as a scalar register holds it: `zext_128` (R85). -/
def vectorResult {W : Nat} (v : BitVec W) : Scalar := v.setWidth 128

/-- A result of the modular unit as a scalar register holds it: `zext_128` of an N-bit word (R85). -/
def modularResult (n : Width) (v : Nat) : Scalar := (BitVec.ofNat n.bits v).setWidth 128

/-- A register, by the file it is in. -/
inductive RegName where
  | matrix (r : MReg)
  | scalar (r : SReg)
  deriving DecidableEq, Repr

/-- The destination register of a command: the column `rd` of R83. -/
def destinationOf : Instr → RegName
  | .bmNew md => .matrix md
  | .bmZero md => .matrix md
  | .bmIdent md => .matrix md
  | .bmShift md _ => .matrix md
  | .bmApply sd _ _ => .scalar sd
  | .bmCompose md _ _ => .matrix md
  | .bmAdd md _ _ => .matrix md
  | .bmAnd md _ _ => .matrix md
  | .bmShl md _ _ => .matrix md
  | .bmShr md _ _ => .matrix md
  | .bmPow md _ _ => .matrix md
  | .bmEq sd _ _ => .scalar sd
  | .maMulmod _ sd _ _ _ => .scalar sd
  | .maPowmod _ sd _ _ _ => .scalar sd
  | .maWpow _ sd _ _ => .scalar sd
  | .maWgeom _ sd _ _ => .scalar sd
  | .maModulo _ _ _ sd _ _ => .scalar sd

/-- The source registers of a command: the columns `ra`, `rb` and `rc` of R83. COLBUF, which BM.NEW
reads, is no register of a file. -/
def sourcesOf : Instr → List RegName
  | .bmNew _ => []
  | .bmZero _ => []
  | .bmIdent _ => []
  | .bmShift _ sk => [.scalar sk]
  | .bmApply _ ma sv => [.matrix ma, .scalar sv]
  | .bmCompose _ ma mb => [.matrix ma, .matrix mb]
  | .bmAdd _ ma mb => [.matrix ma, .matrix mb]
  | .bmAnd _ ma smask => [.matrix ma, .scalar smask]
  | .bmShl _ ma sn => [.matrix ma, .scalar sn]
  | .bmShr _ ma sn => [.matrix ma, .scalar sn]
  | .bmPow _ ma sn => [.matrix ma, .scalar sn]
  | .bmEq _ ma mb => [.matrix ma, .matrix mb]
  | .maMulmod _ _ sa sb sm => [.scalar sa, .scalar sb, .scalar sm]
  | .maPowmod _ _ sbase sn sm => [.scalar sbase, .scalar sn, .scalar sm]
  | .maWpow _ _ sbase sn => [.scalar sbase, .scalar sn]
  | .maWgeom _ _ sr sn => [.scalar sr, .scalar sn]
  | .maModulo _ _ _ _ sa sm => [.scalar sa, .scalar sm]

/-- The modulus operand of a command that has one, as the command reads it. -/
def State.modulusOf (s : State) : Instr → Option Nat
  | .maMulmod n _ _ _ sm => some (s.modularOperand n sm)
  | .maPowmod n _ _ _ sm => some (s.modularOperand n sm)
  | .maModulo n _ _ _ _ sm => some (s.modularOperand n sm)
  | .bmNew .. | .bmZero .. | .bmIdent .. | .bmShift .. | .bmApply .. | .bmCompose .. | .bmAdd ..
  | .bmAnd .. | .bmShl .. | .bmShr .. | .bmPow .. | .bmEq .. | .maWpow .. | .maWgeom .. => none

end Sys2Proof.Machine
end

