-- ==== Sys2Proof/Machine/BitMatrixCommands.lean ====
section
/-! DEFINITION. The meanings of the twelve commands of the bit-matrix unit (R129 to R141). Each reads
its sources in the state before it, writes its destination, and always completes. -/

namespace Sys2Proof.Machine

/-- BM.NEW (R130). -/
def execBmNew (md : MReg) (s : State) : Host.Outcome State Fault Refusal :=
  .next (s.setMR md (.new s.colbuf))

/-- BM.ZERO (R131). -/
def execBmZero (md : MReg) (s : State) : Host.Outcome State Fault Refusal :=
  .next (s.setMR md (.zero _))

/-- BM.IDENT (R132). -/
def execBmIdent (md : MReg) (s : State) : Host.Outcome State Fault Refusal :=
  .next (s.setMR md (.identity _))

/-- BM.SHIFT (R133). -/
def execBmShift (md : MReg) (sk : SReg) (s : State) : Host.Outcome State Fault Refusal :=
  .next (s.setMR md (.shift _ (s.shiftOperand sk)))

/-- BM.APPLY (R134). -/
def execBmApply (sd : SReg) (ma : MReg) (sv : SReg) (s : State) :
    Host.Outcome State Fault Refusal :=
  .next (s.setSR sd (vectorResult ((s.getMR ma).apply (s.vectorOperand sv))))

/-- BM.COMPOSE (R135). -/
def execBmCompose (md ma mb : MReg) (s : State) : Host.Outcome State Fault Refusal :=
  .next (s.setMR md ((s.getMR ma).compose (s.getMR mb)))

/-- BM.ADD (R136). -/
def execBmAdd (md ma mb : MReg) (s : State) : Host.Outcome State Fault Refusal :=
  .next (s.setMR md ((s.getMR ma).add (s.getMR mb)))

/-- BM.AND (R137). -/
def execBmAnd (md ma : MReg) (smask : SReg) (s : State) : Host.Outcome State Fault Refusal :=
  .next (s.setMR md ((s.getMR ma).bitand (s.vectorOperand smask)))

/-- BM.SHL (R138). -/
def execBmShl (md ma : MReg) (sn : SReg) (s : State) : Host.Outcome State Fault Refusal :=
  .next (s.setMR md ((s.getMR ma).shl (s.countOperand sn)))

/-- BM.SHR (R139). -/
def execBmShr (md ma : MReg) (sn : SReg) (s : State) : Host.Outcome State Fault Refusal :=
  .next (s.setMR md ((s.getMR ma).shr (s.countOperand sn)))

/-- BM.POW (R140). -/
def execBmPow (md ma : MReg) (sn : SReg) (s : State) : Host.Outcome State Fault Refusal :=
  .next (s.setMR md ((s.getMR ma).pow (s.countOperand sn)))

/-- BM.EQ (R141). -/
def execBmEq (sd : SReg) (ma mb : MReg) (s : State) : Host.Outcome State Fault Refusal :=
  .next (s.setSR sd (if (s.getMR ma).eq (s.getMR mb) then 1 else 0))

end Sys2Proof.Machine
end

