-- ==== Sys2Proof/Machine/Modular.lean ====
section
/-! DEFINITION. The functions of the modular unit (R161 to R169), on exact natural numbers and
integers, for every working width `N`; and the reference algorithms the spec gives beside them, which
no command calls. A modulus here is positive: the case 0 is R170's, and the commands stop on it. -/

namespace Sys2Proof.Machine

/-- `mul_mod(a, b, m)` (R161). Which of the two permitted algorithms computes it is not visible (R6).
Assumption 8. -/
def mulMod (a b m : Nat) : Nat := (a * b) % m

/-- `pow_mod(base, n, m)`: the loop, whose initial 1 is returned unreduced for `n = 0` (R164). -/
def powMod (base n m : Nat) : Nat := powerBySquaring (fun x y => mulMod x y m) 1 base n

/-- The wrapping multiply of width `N` (R165). -/
def wrappingMul (N x y : Nat) : Nat := (x * y) % 2 ^ N

/-- `wrapping_pow(base, n)` at width `N` (R165). -/
def wrappingPow (N base n : Nat) : Nat := powerBySquaring (wrappingMul N) 1 base n

/-- The loop of R167 with `k` terms remaining; the first argument after `N` bounds the rounds. -/
def geomLoop (N : Nat) : Nat → Nat → Nat → Nat → Nat → Nat
  | 0, _, _, mult, result => (result + mult) % 2 ^ N
  | rounds + 1, k, tempR, mult, result =>
    if 1 < k then
      geomLoop N rounds (k / 2)
        ((tempR * tempR) % 2 ^ N)
        ((mult * (1 + tempR)) % 2 ^ N)
        (if k % 2 = 1 then (result + wrappingPow N tempR (k - 1) * mult) % 2 ^ N else result)
    else (result + mult) % 2 ^ N

/-- `wrapping_geom_series(r, n)` at width `N`, with the arm for `n = 0` that conflict C1 settles
(R166, R167). -/
def wrappingGeomSeries (N r n : Nat) : Nat :=
  if n = 0 then 0 else geomLoop N (bitLength n - 1) n r 1 0

/-- `modulo(a, m)`: the canonical remainder of an integer of either sign (R168). -/
def modulo (a : Int) (m : Nat) : Nat := (a % (m : Int)).toNat

/-- The loop of R162 over the bits of `aw`; the second argument bounds the rounds. -/
def doublingLoop (m : Nat) : Nat → Nat → Nat → Nat → Nat
  | 0, _, _, result => result
  | rounds + 1, aw, bw, result =>
    if aw = 0 then result
    else
      doublingLoop m rounds (aw / 2)
        (if m - bw ≤ bw then bw - (m - bw) else bw + bw)
        (if aw % 2 = 1 then
          if m - bw ≤ result then result - (m - bw) else result + bw
        else result)

/-- The overflow-free `mul_mod` by binary long multiplication (R162). -/
def mulModByDoubling (a b m : Nat) : Nat := doublingLoop m (bitLength a) a (b % m) 0

/-- The permitted `mul_mod` by widening to 2N bits (R163). -/
def mulModByWidening (N : Nat) (a b m : BitVec N) : BitVec N :=
  ((a.setWidth (2 * N) * b.setWidth (2 * N)) % m.setWidth (2 * N)).setWidth N

/-- `modulo` by the magnitude of a negative operand, taken as `-(a+1)` and 1 added back (R169). -/
def moduloByMagnitude (a : Int) (m : Nat) : Nat :=
  if 0 ≤ a then a.toNat % m
  else
    let t := (-(a + 1)).toNat
    let mag := t + 1
    let rem := mag % m
    if rem = 0 then 0 else m - rem

/-- `mul_mod` applied `n` times to 1: the sequence `p` of R172. -/
def repeatedMulMod (base m : Nat) : Nat → Nat
  | 0 => 1
  | n + 1 => mulMod (repeatedMulMod base m n) base m

/-- The naive loop over `n` terms: the sequence `g` of R173. -/
def naiveGeomSeries (N r : Nat) : Nat → Nat
  | 0 => 0
  | n + 1 => (naiveGeomSeries N r n + wrappingPow N r n) % 2 ^ N

end Sys2Proof.Machine
end

