-- ==== Sys2Proof/Machine/ModularCommands.lean ====
section
/-! DEFINITION. The meanings of the five commands of the modular unit (R179 to R184). A command with
a modulus stops with a fault of the model when that operand reads as 0, the one case R170 leaves
undefined altogether. -/

namespace Sys2Proof.Machine

/-- MA.MULMOD (R180). -/
def execMaMulmod (n : Width) (sd sa sb sm : SReg) (s : State) :
    Host.Outcome State Fault Refusal :=
  let m := s.modularOperand n sm
  if m = 0 then .fault .zeroModulus
  else
    .next (s.setSR sd
      (modularResult n (mulMod (s.modularOperand n sa) (s.modularOperand n sb) m)))

/-- MA.POWMOD (R181); a zero modulus is undefined also when the exponent is 0. -/
def execMaPowmod (n : Width) (sd sbase sn sm : SReg) (s : State) :
    Host.Outcome State Fault Refusal :=
  let m := s.modularOperand n sm
  if m = 0 then .fault .zeroModulus
  else
    .next (s.setSR sd
      (modularResult n (powMod (s.modularOperand n sbase) (s.countOperand sn) m)))

/-- MA.WPOW (R182). -/
def execMaWpow (n : Width) (sd sbase sn : SReg) (s : State) : Host.Outcome State Fault Refusal :=
  .next (s.setSR sd
    (modularResult n (wrappingPow n.bits (s.modularOperand n sbase) (s.countOperand sn))))

/-- MA.WGEOM (R183). -/
def execMaWgeom (n : Width) (sd sr sn : SReg) (s : State) : Host.Outcome State Fault Refusal :=
  .next (s.setSR sd
    (modularResult n (wrappingGeomSeries n.bits (s.modularOperand n sr) (s.countOperand sn))))

/-- MA.MODULO (R184). -/
def execMaModulo (n a : Width) (sg : Signedness) (sd sa sm : SReg) (s : State) :
    Host.Outcome State Fault Refusal :=
  let m := s.modularOperand n sm
  if m = 0 then .fault .zeroModulus
  else .next (s.setSR sd (modularResult n (modulo (s.dividendOperand a sg sa) m)))

end Sys2Proof.Machine
end

