-- ==== Sys2Proof/Machine/Dispatch.lean ====
section
/-! DEFINITION. Executing one command: each constructor's meaning. -/

namespace Sys2Proof.Machine

def exec (i : Instr) (s : State) : Host.Outcome State Fault Refusal :=
  match i with
  | .bmNew md => Sys2Proof.Machine.execBmNew md s
  | .bmZero md => Sys2Proof.Machine.execBmZero md s
  | .bmIdent md => Sys2Proof.Machine.execBmIdent md s
  | .bmShift md sk => Sys2Proof.Machine.execBmShift md sk s
  | .bmApply sd ma sv => Sys2Proof.Machine.execBmApply sd ma sv s
  | .bmCompose md ma mb => Sys2Proof.Machine.execBmCompose md ma mb s
  | .bmAdd md ma mb => Sys2Proof.Machine.execBmAdd md ma mb s
  | .bmAnd md ma smask => Sys2Proof.Machine.execBmAnd md ma smask s
  | .bmShl md ma sn => Sys2Proof.Machine.execBmShl md ma sn s
  | .bmShr md ma sn => Sys2Proof.Machine.execBmShr md ma sn s
  | .bmPow md ma sn => Sys2Proof.Machine.execBmPow md ma sn s
  | .bmEq sd ma mb => Sys2Proof.Machine.execBmEq sd ma mb s
  | .maMulmod n sd sa sb sm => Sys2Proof.Machine.execMaMulmod n sd sa sb sm s
  | .maPowmod n sd sbase sn sm => Sys2Proof.Machine.execMaPowmod n sd sbase sn sm s
  | .maWpow n sd sbase sn => Sys2Proof.Machine.execMaWpow n sd sbase sn s
  | .maWgeom n sd sr sn => Sys2Proof.Machine.execMaWgeom n sd sr sn s
  | .maModulo n a sg sd sa sm => Sys2Proof.Machine.execMaModulo n a sg sd sa sm s

end Sys2Proof.Machine
end

