-- ==== Sys2Proof/Machine/Flags.lean ====
section
/-! DEFINITION. The words that the read-only and status registers show. There are no condition codes:
no command reads or writes a flag (R26). -/

namespace Sys2Proof.Machine

/-- The word ID shows: `W`, NSR, NMR and VER, one byte each, the lowest first (R27). -/
def State.idWord (s : State) : Word :=
  BitVec.ofNat 8 Config.ver ++ BitVec.ofNat 8 Config.nmr ++ BitVec.ofNat 8 Config.nsr ++
    BitVec.ofNat 8 s.width.bits

/-- The word STATUS shows: ILL in bit 0, the reserved bits 0 (R28). -/
def State.statusWord (s : State) : Word := if s.ill then 1 else 0

end Sys2Proof.Machine
end

