-- ==== Sys2Proof/Machine/Window.lean ====
section
/-! DEFINITION. The register window: what stands at each address (R51), and what a read of it answers
(R52 to R58). -/

namespace Sys2Proof.Machine

/-- What stands at a word of the window, for hardware of dimension `W`. -/
inductive Location (W : Nat) where
  | id
  | status
  | cmd
  | fcmd
  /-- word `j` of `SR[r]` -/
  | sr (r : SReg) (j : Fin 4)
  /-- word `j` of `COLBUF[i]` -/
  | colbuf (i : Fin W) (j : Fin 4)
  /-- word `j` of `MR[r].col[i]` -/
  | mr (r : MReg) (i : Fin W) (j : Fin 4)
  | unmapped
  deriving DecidableEq, Repr

/-- The offsets of the four control registers (R51). -/
def locateControl (W : Nat) (a : Nat) : Location W :=
  match a with
  | 0x0 => .id
  | 0x4 => .status
  | 0x8 => .cmd
  | 0xC => .fcmd
  | _ => .unmapped

/-- The map of the window (R51), for an address that is a multiple of 4. -/
def locate (W : Nat) (addr : WindowAddr) : Location W :=
  let a := addr.toNat
  let j := Fin.ofNat 4 (a / 4)
  if a < 0x0010 then locateControl W a
  else if a < 0x0100 then .unmapped
  else if a < 0x0200 then .sr (Fin.ofNat 16 ((a - 0x0100) / 0x10)) j
  else if a < 0x0800 then .unmapped
  else if a < 0x1000 then
    if h : (a - 0x0800) / 0x10 < W then .colbuf ⟨(a - 0x0800) / 0x10, h⟩ j else .unmapped
  else if a < 0x8000 then .unmapped
  else if h : (a - 0x8000) % 0x800 / 0x10 < W then
    .mr (Fin.ofNat 16 ((a - 0x8000) / 0x800)) ⟨(a - 0x8000) % 0x800 / 0x10, h⟩ j
  else .unmapped

/-- The first two checks of R205: a 32-bit access at a multiple of 4. -/
def accessShapeOk (size : AccessSize) (addr : WindowAddr) : Bool :=
  size = .bits 32 && addr.toNat % 4 = 0

/-- The response to a read of a location (R51, R54 to R56). -/
def State.readLocation (s : State) : Location s.width.bits → Response
  | .id => .okayData s.idWord
  | .status => .okayData s.statusWord
  | .cmd => .error
  | .fcmd => .okayData s.fcmd
  | .sr r j => .okayData (slotWord (s.getSR r) j)
  | .colbuf i j => .okayData (slotWord (s.getColbuf i) j)
  | .mr r i j => .okayData (slotWord ((s.getMR r).col i.val) j)
  | .unmapped => .error

/-- `HostRead`: the response to a read, which changes nothing (R52, R66). -/
def State.hostRead (s : State) (size : AccessSize) (addr : WindowAddr) : Response :=
  if accessShapeOk size addr then s.readLocation (locate s.width.bits addr) else .error

end Sys2Proof.Machine
end

