-- ==== Sys2Proof/Machine/Port.lean ====
section
/-! DEFINITION. The host port: issuing a command by a write to CMD, the other writes of the window, and
serving one event. -/

namespace Sys2Proof.Machine

/-- The OKAY that follows a command that ended in a next state (R29). -/
def okayAfter (o : Host.Outcome State Fault Refusal) : Host.Outcome State Fault Refusal :=
  match o with
  | .next t => .next (t.respond .okay)
  | .fault f => .fault f
  | .refused r => .refused r

/-- A write of the word `cw` to CMD: a legal word is executed whole before its OKAY, an illegal one is
recorded and answered ERROR (R29, R201). -/
def State.issue (s : State) (cw : Word) : Host.Outcome State Fault Refusal :=
  match decode cw with
  | .ok i => okayAfter (exec i s)
  | .error _ => .next ((s.raiseIllegal cw).respond .error)

/-- The effect of a 32-bit write to a location (R51, R54, R55, R58). -/
def State.writeLocation (s : State) (v : Word) :
    Location s.width.bits → Host.Outcome State Fault Refusal
  | .id => .next (s.respond .error)
  | .status => .next ((s.acknowledge v).respond .okay)
  | .cmd => s.issue v
  | .fcmd => .next (s.respond .error)
  | .sr r j => .next ((s.setSR r (setSlotWord (s.getSR r) j v)).respond .okay)
  | .colbuf i j => .next ((s.setColbuf i (setSlotWord (s.getColbuf i) j v)).respond .okay)
  | .mr _ _ _ => .next (s.respond .error)
  | .unmapped => .next (s.respond .error)

/-- `HostWrite`: the checks in the order of R205, then the write (R52). -/
def State.hostWrite (s : State) (size : AccessSize) (addr : WindowAddr) (v : Word) :
    Host.Outcome State Fault Refusal :=
  if accessShapeOk size addr then s.writeLocation v (locate s.width.bits addr)
  else .next (s.respond .error)

/-- One event, served whole before the next (R60). A reset gives no response, whether or not it cuts
a command off (R230). -/
def State.serve (s : State) : HostEvent → Host.Outcome State Fault Refusal
  | .read size addr => .next (s.respond (s.hostRead size addr))
  | .write size addr v => s.hostWrite size addr v
  | .reset _ => .next s.applyReset

/-- One step: the next event, if there is one. The core does nothing that the host did not start
(R10), so with no event to come it holds its state (R214). Assumption 5. -/
def State.advance (s : State) : Host.Outcome State Fault Refusal :=
  match s.inbox with
  | [] => .next s
  | event :: rest => ({ s with inbox := rest } : State).serve event

/-- The offset of CMD (R29). -/
def cmdAddr : WindowAddr := 0x0008

/-- The host transaction that issues the command word `cw` (R29). -/
def commandWrite (cw : Word) : HostEvent := .write (.bits 32) cmdAddr cw

/-- `s` with the command word `cw` as the next transaction of the host. Assumption 7. -/
def State.withCommand (s : State) (cw : Word) : State :=
  { s with inbox := commandWrite cw :: s.inbox }

end Sys2Proof.Machine
end

