-- ==== Sys2Proof/Machine/Directives.lean ====
section
/-! DEFINITION. The host-side directives of R92, each the transactions it stands for. -/

namespace Sys2Proof.Machine

/-- `HW addr, word` (R92). -/
def hw (addr : Nat) (word : Word) : HostEvent := .write (.bits 32) (BitVec.ofNat 16 addr) word

/-- `HR addr` (R92). -/
def hr (addr : Nat) : HostEvent := .read (.bits 32) (BitVec.ofNat 16 addr)

/-- `SETS sR, value`: the four words of a scalar register, the least significant first (R92). -/
def sets (r : SReg) (value : Scalar) : List HostEvent :=
  [hw (0x0100 + 0x10 * r.val + 4 * 0) (value.extractLsb' 0 32),
   hw (0x0100 + 0x10 * r.val + 4 * 1) (value.extractLsb' 32 32),
   hw (0x0100 + 0x10 * r.val + 4 * 2) (value.extractLsb' 64 32),
   hw (0x0100 + 0x10 * r.val + 4 * 3) (value.extractLsb' 96 32)]

/-- `SETCOL i, value`: the words `j` of a column of width `W` with `32j < W` (R92). -/
def setcol (w : Width) (i : Nat) (value : BitVec w.bits) : List HostEvent :=
  ((List.range 4).filter fun j => 32 * j < w.bits).map fun j =>
    hw (0x0800 + 0x10 * i + 4 * j) ((value.setWidth 128).extractLsb' (32 * j) 32)

/-- `CMD <assembly>`: the write to CMD of the command's word (R92). -/
def cmd (i : Instr) : HostEvent := hw 0x0008 (encode i)

end Sys2Proof.Machine
end

