-- ==== Sys2Proof/Safety.lean ====
section
/-! DEFINITION. What counts as a safe run, in the terms the statements use. -/

namespace Sys2Proof.Machine

/-- The command has every operand it needs: its modulus operand, if it has one, is not 0 (R170,
R238). -/
def State.operandsDefined (s : State) (i : Instr) : Prop := s.modulusOf i ≠ some 0

/-- What FCMD can hold: 0, or a word that is no command (R30). The word 0 is no command either
(R86). -/
def State.fcmdIsIllegal (s : State) : Prop := ∃ why, decode s.fcmd = .error why

/-- The required invariants of R12 on matrices of dimension `W`, which must hold exactly: `compose` is
associative and `apply` is linear. -/
def requiredInvariants (W : Nat) : Prop :=
  (∀ A B C : BitMatrix W, (A.compose B).compose C = A.compose (B.compose C)) ∧
  (∀ (A : BitMatrix W) (v w : BitVec W), A.apply (v ^^^ w) = A.apply v ^^^ A.apply w)

end Sys2Proof.Machine
end

