-- ==== Sys2Proof/Certificates/Slice0/Obligations.lean ====
section
/-! DEFINITION. The statements for the provers, and the few expressions of the spec they are written
in. Where a rule says what a value is, the statement says it in the rule's own terms (exact arithmetic,
bits, sums), not by the model's function for it. -/

namespace Sys2Proof.Machine

/-- The five-case table of R112 for column `i` of `shift(k)`. -/
def shiftColumnTable (W : Nat) (k : Int) (i : Nat) : BitVec W :=
  if (W : Int) ≤ k ∨ k ≤ -(W : Int) then 0#W
  else if 0 ≤ k then
    if i + k.toNat ≤ W - 1 then BitVec.ofNat W (2 ^ (i + k.toNat)) else 0#W
  else if 0 ≤ (i : Int) + k then BitVec.ofNat W (2 ^ ((i : Int) + k).toNat)
  else 0#W

/-- The XOR over the `i` where bit `i` of `v` is set of the columns of `M` (R113). -/
def columnsXor {W : Nat} (M : BitMatrix W) (v : BitVec W) : BitVec W :=
  (((List.range W).filter fun i => v.getLsbD i).map M.col).foldr (· ^^^ ·) 0#W

/-- An address R51 calls unmapped, for hardware of dimension `W`. -/
def unmappedAddr (W : Nat) (a : Nat) : Prop :=
  (0x0010 ≤ a ∧ a < 0x0100) ∨ (0x0200 ≤ a ∧ a < 0x0800) ∨
  (0x0800 ≤ a ∧ a < 0x1000 ∧ W ≤ (a - 0x0800) / 0x10) ∨ (0x1000 ≤ a ∧ a < 0x8000) ∨
  (0x8000 ≤ a ∧ W ≤ (a - 0x8000) % 0x800 / 0x10)

/-- The accesses (a) to (e) of R58, for hardware of dimension `W`. -/
def accessErrorEvent (W : Nat) : HostEvent → Prop
  | .read size addr =>
    size ≠ .bits 32 ∨ addr.toNat % 4 ≠ 0 ∨ unmappedAddr W addr.toNat ∨ addr.toNat = 0x0008
  | .write size addr _ =>
    size ≠ .bits 32 ∨ addr.toNat % 4 ≠ 0 ∨ unmappedAddr W addr.toNat ∨
      addr.toNat = 0x0000 ∨ addr.toNat = 0x000C ∨ 0x8000 ≤ addr.toNat
  | .reset _ => False

/-- An address in the window block of a register: the 16 bytes of a scalar register, the 0x800 bytes
of a matrix register (R51). -/
def inBlockOf (a : Nat) : RegName → Prop
  | .scalar r => 0x0100 + 0x10 * r.val ≤ a ∧ a < 0x0110 + 0x10 * r.val
  | .matrix r => 0x8000 + 0x800 * r.val ≤ a ∧ a < 0x8800 + 0x800 * r.val

/-- An event is a transaction of the host, not a reset. -/
def isTransaction : HostEvent → Bool
  | .read _ _ => true
  | .write _ _ _ => true
  | .reset _ => false

/-- The event writes to CMD a command that has a modulus operand. -/
def issuesModulusCommand : HostEvent → Prop
  | .write _ addr cw => addr = cmdAddr ∧ ∃ n sd sa sb sm a sg,
      decode cw = .ok (.maMulmod n sd sa sb sm) ∨ decode cw = .ok (.maPowmod n sd sa sb sm) ∨
        decode cw = .ok (.maModulo n a sg sd sa sm)
  | .read _ _ => False
  | .reset _ => False

/-- Two states of hardware of one dimension hold the same in every source of a command (R83): its
source registers, and COLBUF for BM.NEW. -/
def agreeOnSources (i : Instr) (s s' : State) : Prop :=
  s.width = s'.width ∧
  (∀ r, .scalar r ∈ sourcesOf i → s.getSR r = s'.getSR r) ∧
  (∀ r, .matrix r ∈ sourcesOf i → ∀ k, s.mrSlot r k = s'.mrSlot r k) ∧
  (i.opcode = .bmNew → ∀ k, s.colbufSlot k = s'.colbufSlot k)

/-- Two states hold the same in one register. -/
def agreeOn (s s' : State) : RegName → Prop
  | .scalar r => s.getSR r = s'.getSR r
  | .matrix r => ∀ k, s.mrSlot r k = s'.mrSlot r k

end Sys2Proof.Machine

open Sys2Proof Sys2Proof.Machine

/-! ## Encoding -/

/-- Words written out in R90's table and in 95_test_vectors.md section 2.1. -/
def Obligations.WordsOfTheSpecDecodeAsWritten : Prop :=
  decode 0x04003000 = .ok (.bmNew 3) ∧ decode 0x08007000 = .ok (.bmZero 7) ∧
  decode 0x0C000000 = .ok (.bmIdent 0) ∧ decode 0x10001000 = .ok (.bmShift 1 0) ∧
  decode 0x14002100 = .ok (.bmApply 2 1 0) ∧ decode 0x18003120 = .ok (.bmCompose 3 1 2) ∧
  decode 0x2C005430 = .ok (.bmPow 5 4 3) ∧
  decode 0x41003012 = .ok (.maMulmod .w32 3 0 1 2) ∧
  decode 0x44003012 = .ok (.maPowmod .w8 3 0 1 2) ∧
  decode 0x49804010 = .ok (.maWpow .w64 4 0 1) ∧
  decode 0x4D002010 = .ok (.maWgeom .w32 2 0 1) ∧
  decode 0x51381020 = .ok (.maModulo .w32 .w64 .signed 1 0 2) ∧
  decode 0x04010000 = .error .mustBeZero ∧ decode 0x42800000 = .error .reservedSz ∧
  decode 0x50500000 = .error .reservedAsz ∧ decode 0x34000000 = .error .unknownOp

/-- Every command, with every operand, is read back from its word. -/
def Obligations.DecodeOfEncodeIsTheCommand : Prop :=
  ∀ i : Instr, decode (encode i) = .ok i

/-- Every legal word is the word of the command it is read as: no two words are one command. -/
def Obligations.EncodeOfDecodeIsTheWord : Prop :=
  ∀ (cw : Word) (i : Instr), decode cw = .ok i → encode i = cw

/-- The match and mask table of R83 and the procedure of R88 agree on all words: a word is a command
of an operation if and only if it is admitted by the row of that operation. -/
def Obligations.DecodingIsTheMatchAndMaskTable : Prop :=
  ∀ (cw : Word) (op : Opcode),
    (∃ i, decode cw = .ok i ∧ i.opcode = op) ↔
      ∃ row ∈ commandTable, row.opcode = op ∧ row.admits cw = true

/-- R86, whole: what is illegal, by the four conditions and by the table, and what issuing it does. -/
def Obligations.IllegalWordsAreThoseOfTheFourConditions : Prop :=
  (∀ cw : Word, (∃ why, decode cw = .error why) ↔
    ((Fields.ofWord cw).opKnown = false ∨ (Fields.ofWord cw).unusedZero = false ∨
      (Fields.ofWord cw).szDefined = false ∨ (Fields.ofWord cw).aszDefined = false)) ∧
  (∀ cw : Word, (∃ why, decode cw = .error why) ↔ ∀ row ∈ commandTable, row.admits cw = false) ∧
  (∀ (cw : Word) (why : IllegalReason) (s : State), decode cw = .error why →
    s.issue cw = .next ((s.raiseIllegal cw).respond .error)) ∧
  (∃ why, decode 0x00000000 = .error why) ∧ (∃ why, decode 0xFFFFFFFF = .error why)

/-! ## The port, the window and the control registers -/

/-- A step runs the decoded command: a write of a legal word to CMD executes it in the state that
waits for no more of that write, and OKAY follows a next state. -/
def Obligations.StepExecutesTheCommandWrittenToCmd : Prop :=
  ∀ (s : State) (rest : List HostEvent) (cw : Word) (i : Instr),
    s.inbox = .write (.bits 32) 0x0008 cw :: rest → decode cw = .ok i →
      (∀ t, exec i { s with inbox := rest } = .next t → step s = .next (t.respond .okay)) ∧
      (∀ f, exec i { s with inbox := rest } = .fault f → step s = .fault f)

/-- R201, whole; and FCMD as the host sees it: in every state a read of 0x000C answers the recorded
word (R30, R51), so after an illegal command it answers that word. -/
def Obligations.IllegalCommandIsRecordedAndChangesNothingElse : Prop :=
  (∀ (s : State) (rest : List HostEvent) (cw : Word) (why : IllegalReason),
    s.inbox = .write (.bits 32) 0x0008 cw :: rest → decode cw = .error why →
      step s = .next { s with
        inbox := rest, ill := true, fcmd := cw, outbox := s.outbox ++ [.error] }) ∧
  (∀ s : State, s.hostRead (.bits 32) 0x000C = .okayData s.fcmd)

/-- R58: the accesses (a) to (e) get ERROR and change nothing, an illegal command word gets
ERROR and is recorded, and every other access returns OKAY, a command with a defined operand
included. -/
def Obligations.ErrorIsGivenExactlyToTheListedAccesses : Prop :=
  ∀ (s : State) (event : HostEvent) (rest : List HostEvent), s.inbox = event :: rest →
    (accessErrorEvent s.width.bits event →
      step s = .next { s with inbox := rest, outbox := s.outbox ++ [.error] }) ∧
    (∀ size addr, event = .read size addr → ¬ accessErrorEvent s.width.bits event →
      ∃ v, step s = .next { s with inbox := rest, outbox := s.outbox ++ [.okayData v] }) ∧
    (∀ size addr v, event = .write size addr v → ¬ accessErrorEvent s.width.bits event →
      (addr ≠ 0x0008 → ∃ t, step s = .next t ∧ t.outbox = s.outbox ++ [.okay]) ∧
      (addr = 0x0008 → ∀ i, decode v = .ok i → s.operandsDefined i →
        ∃ t, step s = .next t ∧ t.outbox = s.outbox ++ [.okay]) ∧
      (addr = 0x0008 → ∀ why, decode v = .error why →
        step s = .next (({ s with inbox := rest } : State).raiseIllegal v |>.respond .error)))

/-- R54, whole: a read of a word of a scalar register, which changes nothing but the record of
responses, and a write of it, which leaves the other 96 bits. -/
def Obligations.ScalarWindowReadsAndWritesOneWord : Prop :=
  ∀ (s : State) (r : SReg) (j : Fin 4) (addr : WindowAddr) (v : Word),
    addr.toNat = 0x0100 + 0x10 * r.val + 4 * j.val →
      s.serve (.read (.bits 32) addr) =
        .next (s.respond (.okayData ((s.getSR r).extractLsb' (32 * j.val) 32))) ∧
      ∃ x : Scalar,
        s.serve (.write (.bits 32) addr v) = .next ((s.setSR r x).respond .okay) ∧
        x.extractLsb' (32 * j.val) 32 = v ∧
        ∀ b, b < 128 → ¬ (32 * j.val ≤ b ∧ b < 32 * j.val + 32) →
          x.getLsbD b = (s.getSR r).getLsbD b

/-- R55, whole: the words of COLBUF, for every dimension. -/
def Obligations.StagingWindowReadsAndWritesOneWord : Prop :=
  ∀ (s : State) (i : Fin s.width.bits) (j : Fin 4) (addr : WindowAddr) (v : Word),
    addr.toNat = 0x0800 + 0x10 * i.val + 4 * j.val →
      (s.width.bits ≤ 32 * j.val →
        s.serve (.read (.bits 32) addr) = .next (s.respond (.okayData 0)) ∧
        s.serve (.write (.bits 32) addr v) = .next (s.respond .okay)) ∧
      (32 * j.val < s.width.bits →
        s.serve (.read (.bits 32) addr) =
          .next (s.respond (.okayData (((s.getColbuf i).extractLsb' (32 * j.val)
            (min (32 * j.val + 31) (s.width.bits - 1) - 32 * j.val + 1)).setWidth 32))) ∧
        ∃ x, s.serve (.write (.bits 32) addr v) = .next ((s.setColbuf i x).respond .okay) ∧
          ∀ b, b < s.width.bits → x.getLsbD b =
            if 32 * j.val ≤ b ∧ b < 32 * j.val + 32 then v.getLsbD (b - 32 * j.val)
            else (s.getColbuf i).getLsbD b)

/-- R56, whole: the words of a matrix register, which no write changes. -/
def Obligations.MatrixWindowIsReadOnly : Prop :=
  (∀ (s : State) (r : MReg) (i : Fin s.width.bits) (j : Fin 4) (addr : WindowAddr),
    addr.toNat = 0x8000 + 0x800 * r.val + 0x10 * i.val + 4 * j.val →
      (s.width.bits ≤ 32 * j.val →
        s.serve (.read (.bits 32) addr) = .next (s.respond (.okayData 0))) ∧
      (32 * j.val < s.width.bits →
        s.serve (.read (.bits 32) addr) =
          .next (s.respond (.okayData ((((s.getMR r).col i.val).extractLsb' (32 * j.val)
            (min (32 * j.val + 31) (s.width.bits - 1) - 32 * j.val + 1)).setWidth 32))))) ∧
  (∀ (s : State) (size : AccessSize) (addr : WindowAddr) (v : Word), 0x8000 ≤ addr.toNat →
    s.serve (.write size addr v) = .next (s.respond .error))

/-- The four bytes of ID, in hardware of each dimension; no write changes it. -/
def Obligations.IdNamesTheHardware : Prop :=
  (∀ s : State, s.hostRead (.bits 32) 0x0000 =
    .okayData (BitVec.ofNat 32 (s.width.bits + 0x100 * 0x10 + 0x10000 * 0x10 + 0x1000000 * 0x01))) ∧
  (∀ s : State, s.width = .w32 → s.hostRead (.bits 32) 0x0000 = .okayData 0x01101020) ∧
  (∀ (s : State) (size : AccessSize) (v : Word),
    s.serve (.write size 0x0000 v) = .next (s.respond .error))

/-- What STATUS shows, what a write to it does, what sets it, and that ILL changes what no command
does (R28; that nothing else clears it is OnlyTheListedEventsChangeTheFaultRecord). -/
def Obligations.StatusShowsAndClearsIllAndNoCommandReadsIt : Prop :=
  (∀ s : State, s.hostRead (.bits 32) 0x0004 = .okayData (if s.ill then 1 else 0)) ∧
  (∀ (s : State) (v : Word), v.getLsbD 0 = true →
    s.hostWrite (.bits 32) 0x0004 v = .next { s with ill := false, outbox := s.outbox ++ [.okay] }) ∧
  (∀ (s : State) (v : Word), v.getLsbD 0 = false →
    s.hostWrite (.bits 32) 0x0004 v = .next { s with outbox := s.outbox ++ [.okay] }) ∧
  (∀ (s : State) (cw : Word) (why : IllegalReason), decode cw = .error why →
    ∃ t, s.hostWrite (.bits 32) 0x0008 cw = .next t ∧ t.ill = true) ∧
  (∀ (i : Instr) (s t : State) (b : Bool),
    exec i s = .next t → exec i { s with ill := b } = .next { t with ill := b })

/-- Whole-machine rule: the recorded fault is set and its word changed only by an illegal command,
and cleared only by the write-one-to-clear and by reset. -/
def Obligations.OnlyTheListedEventsChangeTheFaultRecord : Prop :=
  ∀ s t : State, step s = .next t →
    (s.ill = true → t.ill = false →
      (∃ v rest, s.inbox = .write (.bits 32) 0x0004 v :: rest ∧ v.getLsbD 0 = true) ∨
      (∃ cut rest, s.inbox = .reset cut :: rest)) ∧
    (s.ill = false → t.ill = true →
      ∃ cw why rest, s.inbox = .write (.bits 32) 0x0008 cw :: rest ∧
        decode cw = .error why ∧ t.fcmd = cw) ∧
    (t.fcmd ≠ s.fcmd →
      (∃ cw why rest, s.inbox = .write (.bits 32) 0x0008 cw :: rest ∧
        decode cw = .error why ∧ t.fcmd = cw ∧ t.ill = true) ∨
      ((∃ cut rest, s.inbox = .reset cut :: rest) ∧ t.fcmd = 0))

/-- No read has a side effect, whatever its shape and wherever it goes. -/
def Obligations.ReadsHaveNoSideEffect : Prop :=
  ∀ (s : State) (size : AccessSize) (addr : WindowAddr) (rest : List HostEvent),
    s.inbox = .read size addr :: rest →
      ∃ r, step s = .next { s with inbox := rest, outbox := s.outbox ++ [r] }

/-- What reset leaves in the registers whose reset value the spec gives: at State.reset, and after a
reset of any state, whether or not it cut a command off. That State.reset is the reference hardware
is the model's choice (assumption 1). That a reset gives no response, also to a write it cuts off, is
the model's reading, not R230's words (assumption 15). -/
def Obligations.ResetLeavesStatusAndFcmdZero : Prop :=
  (State.reset.hostRead (.bits 32) 0x0000 = .okayData 0x01101020 ∧
   State.reset.hostRead (.bits 32) 0x0004 = .okayData 0 ∧
   State.reset.hostRead (.bits 32) 0x000C = .okayData 0) ∧
  ∀ (s : State) (cut : Option Word) (rest : List HostEvent), s.inbox = .reset cut :: rest →
    ∃ t, step s = .next t ∧ t.inbox = rest ∧ t.outbox = s.outbox ∧
      t.hostRead (.bits 32) 0x0000 = s.hostRead (.bits 32) 0x0000 ∧
      t.hostRead (.bits 32) 0x0004 = .okayData 0 ∧ t.hostRead (.bits 32) 0x000C = .okayData 0

/-- FCMD holds no legal word after reset. -/
def Obligations.FcmdHoldsNoCommandAtReset : Prop :=
  State.reset.fcmdIsIllegal

/-- The invariant of FCMD: a word that is no command stays one that is no command over every step of
every state. -/
def Obligations.EveryStepKeepsFcmdNoCommand : Prop :=
  ∀ s t : State, s.fcmdIsIllegal → step s = .next t → t.fcmdIsIllegal

/-- The dimension is fixed and ID a constant: no step of any state changes them. -/
def Obligations.NoStepChangesTheDimension : Prop :=
  ∀ s t : State, step s = .next t →
    t.width = s.width ∧ t.hostRead (.bits 32) 0x0000 = s.hostRead (.bits 32) 0x0000

/-- Events are taken in order, one a step, and each transaction gets one response, after those
before it. That a reset adds no response, also one that cuts a write to CMD off, is the model's
reading: R230 does not say what the host sees (assumption 15). -/
def Obligations.EachTransactionGetsOneResponseInOrder : Prop :=
  ∀ (s t : State) (event : HostEvent) (rest : List HostEvent),
    s.inbox = event :: rest → step s = .next t →
      t.inbox = rest ∧
      (isTransaction event = true → ∃ r, t.outbox = s.outbox ++ [r]) ∧
      (isTransaction event = false → t.outbox = s.outbox)

/-- Every finite run completes: as many steps as there are events serve them all, unless a command
with a zero modulus stops the run; and a run that issues no command with a modulus always does. The
stop on a zero modulus is the model's choice (assumption 6), and that a reset adds no response the
model's reading (assumption 15). -/
def Obligations.EveryRunCompletes : Prop :=
  ∀ s : State,
    ((∃ t, core.run s.inbox.length s = .next t ∧ t.inbox = [] ∧
        t.outbox.length = s.outbox.length + (s.inbox.filter isTransaction).length) ∨
      core.run s.inbox.length s = .fault Fault.zeroModulus) ∧
    ((∀ event ∈ s.inbox, ¬ issuesModulusCommand event) →
      ∃ t, core.run s.inbox.length s = .next t ∧ t.inbox = [] ∧
        t.outbox.length = s.outbox.length + (s.inbox.filter isTransaction).length)

/-- A command completes in the model if and only if its modulus operand, if it has one, is not 0, and
no command is refused. That it completes when that operand is not 0 is R238; the only-if half and the
fault are the model's choice (assumption 6), since R170 leaves open whether the hardware completes
there. -/
def Obligations.CommandsCompleteExactlyWithoutAZeroModulus : Prop :=
  ∀ (i : Instr) (s : State),
    (s.operandsDefined i ↔ ∃ t, exec i s = .next t) ∧
    (¬ s.operandsDefined i ↔ exec i s = .fault .zeroModulus) ∧
    (∀ r, exec i s ≠ .refused r)

/-- R234, whole: the frame of all seventeen commands, and of an illegal one. -/
def Obligations.ACommandWritesItsDestinationAndNothingElse : Prop :=
  (∀ (i : Instr) (s t : State), exec i s = .next t →
    (match destinationOf i with
      | .scalar d => ∃ v, t = s.setSR d v
      | .matrix d => ∃ M, t = s.setMR d M) ∧
    t.width = s.width ∧ t.ill = s.ill ∧ t.fcmd = s.fcmd ∧
    (∀ k, t.colbufSlot k = s.colbufSlot k) ∧
    (∀ r, destinationOf i ≠ r → agreeOn t s r) ∧
    (∀ size addr, ¬ inBlockOf addr.toNat (destinationOf i) →
      t.hostRead size addr = s.hostRead size addr)) ∧
  (∀ (s : State) (cw : Word) (why : IllegalReason), decode cw = .error why →
    s.issue cw = .next { s with ill := true, fcmd := cw, outbox := s.outbox ++ [.error] })

/-- R32: the value a command writes depends on the registers it names as sources and on nothing
else. -/
def Obligations.CommandsDependOnTheirSourcesAlone : Prop :=
  ∀ (i : Instr) (s s' t : State), agreeOnSources i s s' → exec i s = .next t →
    ∃ t', exec i s' = .next t' ∧ agreeOn t t' (destinationOf i)

/-- The directive SETS loads a scalar register in four transactions and leaves the rest. -/
def Obligations.SetsLoadsAScalarRegister : Prop :=
  ∀ (s : State) (r : SReg) (value : Scalar), s.inbox = sets r value →
    core.run 4 s = .next { s.setSR r value with
      inbox := [], outbox := s.outbox ++ [.okay, .okay, .okay, .okay] }

/-! ## The commands of the bit-matrix unit

Each says the command's word for every operand, that it completes in every state, and the value. -/

/-- R130. -/
def Obligations.BmNewCopiesTheStagingBuffer : Prop :=
  ∀ (s : State) (md : MReg),
    decode (BitVec.ofNat 32 (0x04000000 + 0x1000 * md.val)) = .ok (.bmNew md) ∧
    ∃ M, exec (.bmNew md) s = .next (s.setMR md M) ∧
      ∀ i : Fin s.width.bits, M.col i.val = s.getColbuf i

/-- R131. -/
def Obligations.BmZeroClearsEveryColumn : Prop :=
  ∀ (s : State) (md : MReg),
    decode (BitVec.ofNat 32 (0x08000000 + 0x1000 * md.val)) = .ok (.bmZero md) ∧
    ∃ M, exec (.bmZero md) s = .next (s.setMR md M) ∧ ∀ i < s.width.bits, M.col i = 0

/-- R132. -/
def Obligations.BmIdentSetsTheDiagonal : Prop :=
  ∀ (s : State) (md : MReg),
    decode (BitVec.ofNat 32 (0x0C000000 + 0x1000 * md.val)) = .ok (.bmIdent md) ∧
    ∃ M, exec (.bmIdent md) s = .next (s.setMR md M) ∧
      ∀ i < s.width.bits, M.col i = BitVec.ofNat _ (2 ^ i)

/-- R133. -/
def Obligations.BmShiftBuildsTheShiftOperator : Prop :=
  ∀ (s : State) (md : MReg) (sk : SReg),
    decode (BitVec.ofNat 32 (0x10000000 + 0x1000 * md.val + 0x100 * sk.val)) =
      .ok (.bmShift md sk) ∧
    ∃ M, exec (.bmShift md sk) s = .next (s.setMR md M) ∧
      ∀ i < s.width.bits, M.col i = shiftColumnTable _ (s.getSR sk).toInt i

/-- R134. -/
def Obligations.BmApplyXorsTheSelectedColumns : Prop :=
  ∀ (s : State) (sd : SReg) (ma : MReg) (sv : SReg),
    decode (BitVec.ofNat 32 (0x14000000 + 0x1000 * sd.val + 0x100 * ma.val + 0x10 * sv.val)) =
      .ok (.bmApply sd ma sv) ∧
    exec (.bmApply sd ma sv) s = .next (s.setSR sd
      ((columnsXor (s.getMR ma) ((s.getSR sv).setWidth s.width.bits)).setWidth 128))

/-- R135. -/
def Obligations.BmComposeAppliesTheFirstToEachColumnOfTheSecond : Prop :=
  ∀ (s : State) (md ma mb : MReg),
    decode (BitVec.ofNat 32 (0x18000000 + 0x1000 * md.val + 0x100 * ma.val + 0x10 * mb.val)) =
      .ok (.bmCompose md ma mb) ∧
    ∃ M, exec (.bmCompose md ma mb) s = .next (s.setMR md M) ∧
      ∀ i < s.width.bits, M.col i = columnsXor (s.getMR ma) ((s.getMR mb).col i)

/-- R136. -/
def Obligations.BmAddXorsTheColumns : Prop :=
  ∀ (s : State) (md ma mb : MReg),
    decode (BitVec.ofNat 32 (0x1C000000 + 0x1000 * md.val + 0x100 * ma.val + 0x10 * mb.val)) =
      .ok (.bmAdd md ma mb) ∧
    ∃ M, exec (.bmAdd md ma mb) s = .next (s.setMR md M) ∧
      ∀ i < s.width.bits, M.col i = (s.getMR ma).col i ^^^ (s.getMR mb).col i

/-- R137. -/
def Obligations.BmAndMasksTheColumns : Prop :=
  ∀ (s : State) (md ma : MReg) (smask : SReg),
    decode (BitVec.ofNat 32 (0x20000000 + 0x1000 * md.val + 0x100 * ma.val + 0x10 * smask.val)) =
      .ok (.bmAnd md ma smask) ∧
    ∃ M, exec (.bmAnd md ma smask) s = .next (s.setMR md M) ∧
      ∀ i < s.width.bits, ∀ b < s.width.bits,
        (M.col i).getLsbD b = (((s.getMR ma).col i).getLsbD b && (s.getSR smask).getLsbD b)

/-- R138: bit by bit, so that a count of `W` or more leaves no bit. -/
def Obligations.BmShlShiftsTheColumnsLeft : Prop :=
  ∀ (s : State) (md ma : MReg) (sn : SReg),
    decode (BitVec.ofNat 32 (0x24000000 + 0x1000 * md.val + 0x100 * ma.val + 0x10 * sn.val)) =
      .ok (.bmShl md ma sn) ∧
    ∃ M, exec (.bmShl md ma sn) s = .next (s.setMR md M) ∧
      ∀ i < s.width.bits, ∀ b < s.width.bits, (M.col i).getLsbD b =
        (decide ((s.getSR sn).toNat ≤ b) &&
          ((s.getMR ma).col i).getLsbD (b - (s.getSR sn).toNat))

/-- R139: bit by bit, zeros entering at the top. -/
def Obligations.BmShrShiftsTheColumnsRight : Prop :=
  ∀ (s : State) (md ma : MReg) (sn : SReg),
    decode (BitVec.ofNat 32 (0x28000000 + 0x1000 * md.val + 0x100 * ma.val + 0x10 * sn.val)) =
      .ok (.bmShr md ma sn) ∧
    ∃ M, exec (.bmShr md ma sn) s = .next (s.setMR md M) ∧
      ∀ i < s.width.bits, ∀ b < s.width.bits, (M.col i).getLsbD b =
        (decide (b + (s.getSR sn).toNat < s.width.bits) &&
          ((s.getMR ma).col i).getLsbD (b + (s.getSR sn).toNat))

/-- R140: the `n`-fold composition, whatever the exponent. -/
def Obligations.BmPowComposesNTimes : Prop :=
  ∀ (s : State) (md ma : MReg) (sn : SReg),
    decode (BitVec.ofNat 32 (0x2C000000 + 0x1000 * md.val + 0x100 * ma.val + 0x10 * sn.val)) =
      .ok (.bmPow md ma sn) ∧
    exec (.bmPow md ma sn) s =
      .next (s.setMR md ((s.getMR ma).iterate (s.getSR sn).toNat))

/-- R141. -/
def Obligations.BmEqComparesAllColumns : Prop :=
  ∀ (s : State) (sd : SReg) (ma mb : MReg),
    decode (BitVec.ofNat 32 (0x30000000 + 0x1000 * sd.val + 0x100 * ma.val + 0x10 * mb.val)) =
      .ok (.bmEq sd ma mb) ∧
    ((∀ i < s.width.bits, (s.getMR ma).col i = (s.getMR mb).col i) →
      exec (.bmEq sd ma mb) s = .next (s.setSR sd 1)) ∧
    ((∃ i < s.width.bits, (s.getMR ma).col i ≠ (s.getMR mb).col i) →
      exec (.bmEq sd ma mb) s = .next (s.setSR sd 0))

/-! ## The commands of the modular unit -/

/-- R180, with the formula of R161. R180 and R170 call a zero modulus UNDEFINED; that the model stops
there with its own fault is its choice (assumption 6). -/
def Obligations.MaMulmodMultipliesExactlyAndReduces : Prop :=
  ∀ (s : State) (n : Width) (sd sa sb sm : SReg),
    decode (BitVec.ofNat 32 (0x40000000 + 0x800000 * n.code.toNat + 0x1000 * sd.val +
      0x100 * sa.val + 0x10 * sb.val + sm.val)) = .ok (.maMulmod n sd sa sb sm) ∧
    ((s.getSR sm).toNat % 2 ^ n.bits ≠ 0 →
      exec (.maMulmod n sd sa sb sm) s = .next (s.setSR sd (BitVec.ofNat 128
        (((s.getSR sa).toNat % 2 ^ n.bits * ((s.getSR sb).toNat % 2 ^ n.bits)) %
          ((s.getSR sm).toNat % 2 ^ n.bits))))) ∧
    ((s.getSR sm).toNat % 2 ^ n.bits = 0 →
      exec (.maMulmod n sd sa sb sm) s = .fault .zeroModulus)

/-- R181, with the closed form of R164. R181 and R170 call a zero modulus UNDEFINED, also for exponent
0; that the model stops there with its own fault is its choice (assumption 6). -/
def Obligations.MaPowmodRaisesAndReduces : Prop :=
  ∀ (s : State) (n : Width) (sd sbase sn sm : SReg),
    decode (BitVec.ofNat 32 (0x44000000 + 0x800000 * n.code.toNat + 0x1000 * sd.val +
      0x100 * sbase.val + 0x10 * sn.val + sm.val)) = .ok (.maPowmod n sd sbase sn sm) ∧
    ((s.getSR sm).toNat % 2 ^ n.bits ≠ 0 → (s.getSR sn).toNat ≠ 0 →
      exec (.maPowmod n sd sbase sn sm) s = .next (s.setSR sd (BitVec.ofNat 128
        (((s.getSR sbase).toNat % 2 ^ n.bits) ^ (s.getSR sn).toNat %
          ((s.getSR sm).toNat % 2 ^ n.bits))))) ∧
    ((s.getSR sm).toNat % 2 ^ n.bits ≠ 0 → (s.getSR sn).toNat = 0 →
      exec (.maPowmod n sd sbase sn sm) s = .next (s.setSR sd 1)) ∧
    ((s.getSR sm).toNat % 2 ^ n.bits = 0 →
      exec (.maPowmod n sd sbase sn sm) s = .fault .zeroModulus)

/-- R182, with the closed form of R165. -/
def Obligations.MaWpowRaisesAndWraps : Prop :=
  ∀ (s : State) (n : Width) (sd sbase sn : SReg),
    decode (BitVec.ofNat 32 (0x48000000 + 0x800000 * n.code.toNat + 0x1000 * sd.val +
      0x100 * sbase.val + 0x10 * sn.val)) = .ok (.maWpow n sd sbase sn) ∧
    exec (.maWpow n sd sbase sn) s = .next (s.setSR sd (BitVec.ofNat 128
      (((s.getSR sbase).toNat % 2 ^ n.bits) ^ (s.getSR sn).toNat % 2 ^ n.bits)))

/-- R183, with the defining sum of R166. -/
def Obligations.MaWgeomSumsTheSeriesAndWraps : Prop :=
  ∀ (s : State) (n : Width) (sd sr sn : SReg),
    decode (BitVec.ofNat 32 (0x4C000000 + 0x800000 * n.code.toNat + 0x1000 * sd.val +
      0x100 * sr.val + 0x10 * sn.val)) = .ok (.maWgeom n sd sr sn) ∧
    exec (.maWgeom n sd sr sn) s = .next (s.setSR sd (BitVec.ofNat 128
      ((∑ i ∈ Finset.range (s.getSR sn).toNat, ((s.getSR sr).toNat % 2 ^ n.bits) ^ i) %
        2 ^ n.bits)))

/-- R184: the result is the one natural number below the modulus that differs from the dividend by a
multiple of it (R168); the dividend is read from the low A bits, in two's complement if `sg` says so.
R184 and R170 call a zero modulus UNDEFINED; that the model stops there with its own fault is its
choice (assumption 6). -/
def Obligations.MaModuloGivesTheCanonicalRemainder : Prop :=
  ∀ (s : State) (n a : Width) (sg : Signedness) (sd sa sm : SReg),
    decode (BitVec.ofNat 32 (0x50000000 + 0x800000 * n.code.toNat + 0x100000 * a.code.toNat +
      0x80000 * sg.code.toNat + 0x1000 * sd.val + 0x100 * sa.val + 0x10 * sm.val)) =
      .ok (.maModulo n a sg sd sa sm) ∧
    ((s.getSR sm).toNat % 2 ^ n.bits ≠ 0 →
      ∃ r : Nat, exec (.maModulo n a sg sd sa sm) s = .next (s.setSR sd (BitVec.ofNat 128 r)) ∧
        r < (s.getSR sm).toNat % 2 ^ n.bits ∧
        (((s.getSR sm).toNat % 2 ^ n.bits : Nat) : Int) ∣
          (if sg = .signed ∧ 2 ^ (a.bits - 1) ≤ (s.getSR sa).toNat % 2 ^ a.bits then
            (((s.getSR sa).toNat % 2 ^ a.bits : Nat) : Int) - 2 ^ a.bits
          else (((s.getSR sa).toNat % 2 ^ a.bits : Nat) : Int)) - (r : Int)) ∧
    ((s.getSR sm).toNat % 2 ^ n.bits = 0 →
      exec (.maModulo n a sg sd sa sm) s = .fault .zeroModulus)

/-! ## The laws of the bit-matrix functions -/

/-- Repeated squaring is `n`-fold composition, with either order of `result *= base` and with any
number of rounds that is enough (R118). -/
def Obligations.PowBySquaringIsNFoldComposition : Prop :=
  ∀ (W : Nat) (M : BitMatrix W) (n : Nat),
    M.pow n = M.iterate n ∧
    powerBySquaring (fun x y => y.compose x) (BitMatrix.identity W) M n = M.iterate n ∧
    ∀ rounds, bitLength n ≤ rounds →
      squaringLoop BitMatrix.compose rounds n (BitMatrix.identity W) M = M.iterate n

/-- R120. -/
def Obligations.ComposeIsFunctionComposition : Prop :=
  ∀ (W : Nat) (A B : BitMatrix W) (v : BitVec W), (A.compose B).apply v = A.apply (B.apply v)

/-- R121. -/
def Obligations.ApplyIsLinear : Prop :=
  ∀ (W : Nat) (A : BitMatrix W) (v w : BitVec W),
    A.apply (v ^^^ w) = A.apply v ^^^ A.apply w ∧ A.apply 0 = 0

/-- R122. -/
def Obligations.ComposeIsAMonoidWithZero : Prop :=
  (∀ (W : Nat) (A B C : BitMatrix W), (A.compose B).compose C = A.compose (B.compose C)) ∧
  (∀ (W : Nat) (A : BitMatrix W),
    (BitMatrix.identity W).compose A = A ∧ A.compose (BitMatrix.identity W) = A ∧
    (BitMatrix.zero W).compose A = BitMatrix.zero W ∧
    A.compose (BitMatrix.zero W) = BitMatrix.zero W) ∧
  (∃ A B : BitMatrix 32, A.compose B ≠ B.compose A)

/-- R123 and R127. -/
def Obligations.PowersAddAndCommute : Prop :=
  ∀ (W : Nat) (A : BitMatrix W) (m n : Nat),
    (BitMatrix.identity W).pow n = BitMatrix.identity W ∧ A.pow 0 = BitMatrix.identity W ∧
    A.pow 1 = A ∧ A.pow (m + n) = (A.pow m).compose (A.pow n) ∧
    (A.pow m).compose (A.pow n) = (A.pow n).compose (A.pow m)

/-- R124, with the shifts of R7 on numbers. -/
def Obligations.ShiftAgreesWithNativeShifts : Prop :=
  ∀ (W : Nat) (v : BitVec W),
    (∀ k : Int, 0 ≤ k →
      ((BitMatrix.shift W k).apply v).toNat = v.toNat * 2 ^ k.toNat % 2 ^ W) ∧
    (∀ k : Int, k < 0 → ((BitMatrix.shift W k).apply v).toNat = v.toNat / 2 ^ (-k).toNat) ∧
    BitMatrix.identity W = BitMatrix.shift W 0

/-- R125. -/
def Obligations.ColumnShiftsAreCompositions : Prop :=
  ∀ (W : Nat) (A : BitMatrix W) (n : Nat),
    A.shl n = (BitMatrix.shift W n).compose A ∧ A.shr n = (BitMatrix.shift W (-n)).compose A ∧
    (BitMatrix.identity W).shl n = BitMatrix.shift W n ∧
    (BitMatrix.identity W).shr n = BitMatrix.shift W (-n)

/-- R126. -/
def Obligations.AddAndBitandUnderApply : Prop :=
  ∀ (W : Nat) (A B C : BitMatrix W) (mask v : BitVec W) (k : Int),
    (A.add B).apply v = A.apply v ^^^ B.apply v ∧ (A.bitand mask).apply v = A.apply v &&& mask ∧
    ((BitMatrix.identity W).add (BitMatrix.shift W k)).apply v =
      (if 0 ≤ k then v ^^^ (v <<< k.toNat) else v ^^^ (v >>> (-k).toNat)) ∧
    A.compose (B.add C) = (A.compose B).add (A.compose C) ∧
    (A.add B).compose C = (A.compose C).add (B.compose C)

/-- R128. -/
def Obligations.EqualityIsExtensional : Prop :=
  ∀ (W : Nat) (A B : BitMatrix W), A.eq B = true ↔ ∀ v, A.apply v = B.apply v

/-! ## The laws of the modular functions -/

/-- The overflow-free doubling algorithm of R162 and the widening one of R163 compute the function of
R161, and the doubling loop keeps its result below the modulus. -/
def Obligations.MulModAlgorithmsComputeTheSameFunction : Prop :=
  (∀ a b m : Nat, 0 < m → mulModByDoubling a b m = a * b % m) ∧
  (∀ rounds aw bw result m : Nat, bw < m → result < m →
    doublingLoop m rounds aw bw result < m) ∧
  (∀ (N : Nat) (a b m : BitVec N), 0 < m.toNat →
    (mulModByWidening N a b m).toNat = a.toNat * b.toNat % m.toNat)

/-- R172. -/
def Obligations.PowModIsRepeatedMulMod : Prop :=
  ∀ base n m : Nat, 0 < m → powMod base n m = repeatedMulMod base m n

/-- R173. -/
def Obligations.GeomSeriesIsTheNaiveLoop : Prop :=
  ∀ N r n : Nat, 0 < N → r < 2 ^ N →
    wrappingGeomSeries N r n = naiveGeomSeries N r n ∧
    naiveGeomSeries N r (n + 1) = (1 + r * naiveGeomSeries N r n) % 2 ^ N

/-- R175; the natural modulus of width `N` is a modulus of width `2N`. -/
def Obligations.WrappingPowIsPowModAtTheNaturalModulus : Prop :=
  ∀ N base n : Nat, 0 < N → base < 2 ^ N →
    wrappingPow N base n = base ^ n % 2 ^ N ∧ wrappingPow N base n = powMod base n (2 ^ N) ∧
    2 ^ N < 2 ^ (2 * N)

/-- R174. -/
def Obligations.ModuloIsBelowTheModulus : Prop :=
  ∀ (a : Int) (m : Nat), 0 < m →
    modulo a m < m ∧ (0 ≤ a → modulo a m = a.toNat % m)

/-- R169: the algorithm by magnitudes gives the canonical remainder of R168 for every dividend. -/
def Obligations.ModuloByMagnitudeIsTheCanonicalRemainder : Prop :=
  ∀ (a : Int) (m : Nat), 0 < m →
    moduloByMagnitude a m = modulo a m ∧ moduloByMagnitude a m < m ∧
    ((m : Int) ∣ a - moduloByMagnitude a m)

/-- The jump formulas of R176: what `n` single updates of an affine or a multiplicative recurrence
give. A start `x` that is not reduced is reduced by the first update, so with none made it must be
below `m`. -/
def Obligations.JumpAheadIsNSingleUpdates : Prop :=
  (∀ N a c x n : Nat, 0 < N → a < 2 ^ N → x < 2 ^ N →
    (fun y => (a * y + c) % 2 ^ N)^[n] x =
      (wrappingPow N a n * x + c * wrappingGeomSeries N a n) % 2 ^ N) ∧
  (∀ a x m n : Nat, 0 < m → x < m ∨ 0 < n →
    (fun y => a * y % m)^[n] x = mulMod (powMod a n m) x m) ∧
  (∀ a x m n : Nat, 0 < m → mulMod (powMod a n m) x m = a ^ n * x % m)

/-! ## The required invariants, of the functions and of the commands -/

/-- R12: the required invariants hold exactly, of all matrices of every dimension, and of what the
commands leave in the registers, through the windows of `W` bits that operands and results pass. The
laws R120 to R128 and R171 to R175 that R12 names besides are the statements above. -/
def Obligations.RequiredInvariantsHoldOfMatricesAndOfCommands : Prop :=
  (∀ W : Nat, requiredInvariants W) ∧
  (∀ (s : State) (md ma mb mc : MReg), md ≠ ma → md ≠ mc →
    ∃ t t' u, exec (.bmCompose md ma mb) s = .next t ∧ exec (.bmCompose md md mc) t = .next u ∧
      exec (.bmCompose md mb mc) s = .next t' ∧ exec (.bmCompose md ma md) t' = .next u) ∧
  (∀ (s : State) (sd sv sw sx : SReg) (ma : MReg),
    s.getSR sx = s.getSR sv ^^^ s.getSR sw →
    ∃ x y, exec (.bmApply sd ma sv) s = .next (s.setSR sd x) ∧
      exec (.bmApply sd ma sw) s = .next (s.setSR sd y) ∧
      exec (.bmApply sd ma sx) s = .next (s.setSR sd (x ^^^ y))) ∧
  (∀ (s : State) (md ma mb : MReg) (sd sv : SReg),
    ∃ t t' x, exec (.bmCompose md ma mb) s = .next t ∧
      exec (.bmApply sd md sv) t = .next (t.setSR sd x) ∧
      exec (.bmApply sd mb sv) s = .next t' ∧
      exec (.bmApply sd ma sd) t' = .next (t'.setSR sd x))
end

