-- ==== Sys2Proof/Laws/BitMatrix.lean ====
section
/-! SUPPORT. The columns of each matrix function, and what `apply` does to a vector. -/

namespace Sys2Proof.Machine.BitMatrix

variable {W : Nat}

theorem col_of_ge (M : BitMatrix W) {i : Nat} (h : W ≤ i) : M.col i = 0#W := by
  simp [col, Nat.not_lt.mpr h]

theorem col_ofCols (f : Nat → BitVec W) (i : Nat) :
    (ofCols f).col i = if i < W then f i else 0#W := by
  simp [col, ofCols]

@[simp] theorem col_ofCols_lt (f : Nat → BitVec W) {i : Nat} (h : i < W) :
    (ofCols f).col i = f i := by
  simp [col_ofCols, h]

/-- Two matrices with equal columns are equal: the column list is all there is (R110). -/
theorem ext_col {A B : BitMatrix W} (h : ∀ i, i < W → A.col i = B.col i) : A = B := by
  cases A with | mk a => cases B with | mk b =>
  congr 1
  apply Vector.ext
  intro i hi
  have := h i hi
  simpa [col, hi] using this

theorem col_new (columns : Vector (BitVec W) W) {i : Nat} (h : i < W) :
    (new columns).col i = columns[i] := by
  simp [col, new, h]

theorem col_zero (i : Nat) : (zero W).col i = 0#W := by
  simp [zero, col_ofCols]

theorem col_identity {i : Nat} (h : i < W) : (identity W).col i = basisVector W i := by
  simp [identity, h]

theorem col_shift (k : Int) {i : Nat} (h : i < W) :
    (shift W k).col i = shiftWord (basisVector W i) k := by
  simp [shift, h]

theorem col_compose (A B : BitMatrix W) {i : Nat} (h : i < W) :
    (A.compose B).col i = A.apply (B.col i) := by
  simp [compose, h]

theorem col_add (A B : BitMatrix W) {i : Nat} (h : i < W) :
    (A.add B).col i = A.col i ^^^ B.col i := by
  simp [add, h]

theorem col_bitand (A : BitMatrix W) (mask : BitVec W) {i : Nat} (h : i < W) :
    (A.bitand mask).col i = A.col i &&& mask := by
  simp [bitand, h]

theorem col_shl (A : BitMatrix W) (n : Nat) {i : Nat} (h : i < W) :
    (A.shl n).col i = shiftLeftWord (A.col i) n := by
  simp [shl, h]

theorem col_shr (A : BitMatrix W) (n : Nat) {i : Nat} (h : i < W) :
    (A.shr n).col i = shiftRightWord (A.col i) n := by
  simp [shr, h]

theorem eq_iff (A B : BitMatrix W) : A.eq B = true ↔ ∀ i, i < W → A.col i = B.col i := by
  simp [BitMatrix.eq, List.all_eq_true]

/-- The guard of a shift changes no value. -/
theorem shiftLeftWord_eq (a : BitVec W) (n : Nat) : shiftLeftWord a n = a <<< n := by
  unfold shiftLeftWord
  split
  · rename_i h
    ext j hj
    simp
    omega
  · rfl

theorem shiftRightWord_eq (a : BitVec W) (n : Nat) : shiftRightWord a n = a >>> n := by
  unfold shiftRightWord
  split
  · rename_i h
    ext j hj
    simp
    rw [BitVec.getLsbD_of_ge _ _ (by omega)]
  · rfl

theorem getLsbD_basisVector (i j : Nat) :
    (basisVector W i).getLsbD j = (decide (j = i) && decide (j < W)) := by
  rw [basisVector, shiftLeftWord_eq]
  by_cases hj : j < W
  · simp [hj]
    by_cases h : j = i
    · simp [h]
    · simp [h]
      omega
  · simp [hj]

end Sys2Proof.Machine.BitMatrix
end

