-- ==== Sys2Proof/Laws/Decode.lean ====
section
/-! SUPPORT. The fields of a word and the word of fields, and the codes of widths and registers. -/

namespace Sys2Proof

@[simp] theorem registerOf_registerField (r : Fin 16) : registerOf (registerField r) = r := rfl

@[simp] theorem registerField_registerOf (f : BitVec 4) : registerField (registerOf f) = f := rfl

@[simp] theorem Width.ofCode_code (w : Width) : Width.ofCode w.code = some w := by
  cases w <;> rfl

@[simp] theorem Signedness.ofCode_code (g : Signedness) : Signedness.ofCode g.code = g := by
  cases g <;> rfl

@[simp] theorem Opcode.ofCode_code (op : Opcode) : Opcode.ofCode op.code = some op := by
  cases op <;> rfl

theorem Opcode.eq_code_of_ofCode {op : BitVec 6} {o : Opcode} (h : Opcode.ofCode op = some o) :
    op = o.code := by
  revert op o
  decide

theorem Width.eq_code_of_ofCode {c : BitVec 3} {w : Width} (h : Width.ofCode c = some w) :
    c = w.code := by
  revert c w
  decide

/-- The reserved width codes are those above 4 (R84). -/
theorem Width.ofCode_eq_none (c : BitVec 3) : Width.ofCode c = none ↔ 4 < c.toNat := by
  revert c
  decide

/-- The format of each operation (R82, R83). -/
theorem Fields.format_of_code (f : Fields) (o : Opcode) (h : f.op = o.code) :
    f.format = o.format := by
  unfold Fields.format
  rw [h]
  cases o <;> rfl

/-- A field of a word given as a number (R81). -/
theorem extractField_ofNat (n lo len : Nat) (h : lo + len ≤ 32) :
    ((BitVec.ofNat 32 n).extractLsb' lo len).toNat = n / 2 ^ lo % 2 ^ len := by
  rw [BitVec.extractLsb'_toNat, BitVec.toNat_ofNat, Nat.shiftRight_eq_div_pow]
  have h1 : 2 ^ 32 = 2 ^ lo * 2 ^ (32 - lo) := by rw [← pow_add]; congr 1; omega
  rw [h1, Nat.mod_mul_right_div_self, Nat.mod_mod_of_dvd]
  exact pow_dvd_pow 2 (by omega)

/-- The nine fields of a word put together from nine fields are those fields (R81). -/
@[simp] theorem Fields.ofWord_toWord (f : Fields) : Fields.ofWord f.toWord = f := by
  cases f with | mk op sz asz sg z rd ra rb rc =>
  have h1 := op.isLt
  have h2 := sz.isLt
  have h3 := asz.isLt
  have h4 := sg.isLt
  have h5 := z.isLt
  have h6 := rd.isLt
  have h7 := ra.isLt
  have h8 := rb.isLt
  have h9 := rc.isLt
  simp only [Fields.ofWord, Fields.toWord, Fields.mk.injEq]
  refine ⟨?_, ?_, ?_, ?_, ?_, ?_, ?_, ?_, ?_⟩ <;>
    · apply BitVec.eq_of_toNat_eq
      rw [extractField_ofNat _ _ _ (by decide)]
      omega

/-- The word put together from the fields of a word is that word: the nine fields are all 32 bits
(R81). -/
@[simp] theorem Fields.toWord_ofWord (cw : Word) : (Fields.ofWord cw).toWord = cw := by
  have h := cw.isLt
  apply BitVec.eq_of_toNat_eq
  simp only [Fields.toWord, Fields.ofWord, BitVec.toNat_ofNat, BitVec.extractLsb'_toNat,
    Nat.shiftRight_eq_div_pow]
  omega

end Sys2Proof
end

