-- ==== Sys2Proof/Laws/State.lean ====
section
/-! SUPPORT. What each update of the state leaves in each field. -/

namespace Sys2Proof.Machine

@[simp] theorem State.setSR_width (s : State) (r : SReg) (v : Scalar) :
    (s.setSR r v).width = s.width := rfl

@[simp] theorem State.setSR_mr (s : State) (r : SReg) (v : Scalar) :
    (s.setSR r v).mr = s.mr := rfl

@[simp] theorem State.setSR_sr (s : State) (r : SReg) (v : Scalar) :
    (s.setSR r v).sr = s.sr.set r.val v := rfl

@[simp] theorem State.setSR_colbuf (s : State) (r : SReg) (v : Scalar) :
    (s.setSR r v).colbuf = s.colbuf := rfl

@[simp] theorem State.setSR_ill (s : State) (r : SReg) (v : Scalar) :
    (s.setSR r v).ill = s.ill := rfl

@[simp] theorem State.setSR_fcmd (s : State) (r : SReg) (v : Scalar) :
    (s.setSR r v).fcmd = s.fcmd := rfl

@[simp] theorem State.setSR_inbox (s : State) (r : SReg) (v : Scalar) :
    (s.setSR r v).inbox = s.inbox := rfl

@[simp] theorem State.setSR_outbox (s : State) (r : SReg) (v : Scalar) :
    (s.setSR r v).outbox = s.outbox := rfl

@[simp] theorem State.setSR_resets (s : State) (r : SReg) (v : Scalar) :
    (s.setSR r v).resets = s.resets := rfl

@[simp] theorem State.setMR_width (s : State) (r : MReg) (M : BitMatrix s.width.bits) :
    (s.setMR r M).width = s.width := rfl

@[simp] theorem State.setMR_mr (s : State) (r : MReg) (M : BitMatrix s.width.bits) :
    (s.setMR r M).mr = s.mr.set r.val M := rfl

@[simp] theorem State.setMR_sr (s : State) (r : MReg) (M : BitMatrix s.width.bits) :
    (s.setMR r M).sr = s.sr := rfl

@[simp] theorem State.setMR_colbuf (s : State) (r : MReg) (M : BitMatrix s.width.bits) :
    (s.setMR r M).colbuf = s.colbuf := rfl

@[simp] theorem State.setMR_ill (s : State) (r : MReg) (M : BitMatrix s.width.bits) :
    (s.setMR r M).ill = s.ill := rfl

@[simp] theorem State.setMR_fcmd (s : State) (r : MReg) (M : BitMatrix s.width.bits) :
    (s.setMR r M).fcmd = s.fcmd := rfl

@[simp] theorem State.setMR_inbox (s : State) (r : MReg) (M : BitMatrix s.width.bits) :
    (s.setMR r M).inbox = s.inbox := rfl

@[simp] theorem State.setMR_outbox (s : State) (r : MReg) (M : BitMatrix s.width.bits) :
    (s.setMR r M).outbox = s.outbox := rfl

@[simp] theorem State.setMR_resets (s : State) (r : MReg) (M : BitMatrix s.width.bits) :
    (s.setMR r M).resets = s.resets := rfl

@[simp] theorem State.setColbuf_width (s : State) (i : Fin s.width.bits) (v : BitVec s.width.bits) :
    (s.setColbuf i v).width = s.width := rfl

@[simp] theorem State.setColbuf_mr (s : State) (i : Fin s.width.bits) (v : BitVec s.width.bits) :
    (s.setColbuf i v).mr = s.mr := rfl

@[simp] theorem State.setColbuf_sr (s : State) (i : Fin s.width.bits) (v : BitVec s.width.bits) :
    (s.setColbuf i v).sr = s.sr := rfl

@[simp] theorem State.setColbuf_colbuf (s : State) (i : Fin s.width.bits) (v : BitVec s.width.bits) :
    (s.setColbuf i v).colbuf = s.colbuf.set i.val v := rfl

@[simp] theorem State.setColbuf_ill (s : State) (i : Fin s.width.bits) (v : BitVec s.width.bits) :
    (s.setColbuf i v).ill = s.ill := rfl

@[simp] theorem State.setColbuf_fcmd (s : State) (i : Fin s.width.bits) (v : BitVec s.width.bits) :
    (s.setColbuf i v).fcmd = s.fcmd := rfl

@[simp] theorem State.setColbuf_inbox (s : State) (i : Fin s.width.bits) (v : BitVec s.width.bits) :
    (s.setColbuf i v).inbox = s.inbox := rfl

@[simp] theorem State.setColbuf_outbox (s : State) (i : Fin s.width.bits) (v : BitVec s.width.bits) :
    (s.setColbuf i v).outbox = s.outbox := rfl

@[simp] theorem State.setColbuf_resets (s : State) (i : Fin s.width.bits) (v : BitVec s.width.bits) :
    (s.setColbuf i v).resets = s.resets := rfl

@[simp] theorem State.raiseIllegal_width (s : State) (cw : Word) :
    (s.raiseIllegal cw).width = s.width := rfl

@[simp] theorem State.raiseIllegal_mr (s : State) (cw : Word) :
    (s.raiseIllegal cw).mr = s.mr := rfl

@[simp] theorem State.raiseIllegal_sr (s : State) (cw : Word) :
    (s.raiseIllegal cw).sr = s.sr := rfl

@[simp] theorem State.raiseIllegal_colbuf (s : State) (cw : Word) :
    (s.raiseIllegal cw).colbuf = s.colbuf := rfl

@[simp] theorem State.raiseIllegal_ill (s : State) (cw : Word) :
    (s.raiseIllegal cw).ill = true := rfl

@[simp] theorem State.raiseIllegal_fcmd (s : State) (cw : Word) :
    (s.raiseIllegal cw).fcmd = cw := rfl

@[simp] theorem State.raiseIllegal_inbox (s : State) (cw : Word) :
    (s.raiseIllegal cw).inbox = s.inbox := rfl

@[simp] theorem State.raiseIllegal_outbox (s : State) (cw : Word) :
    (s.raiseIllegal cw).outbox = s.outbox := rfl

@[simp] theorem State.raiseIllegal_resets (s : State) (cw : Word) :
    (s.raiseIllegal cw).resets = s.resets := rfl

@[simp] theorem State.acknowledge_width (s : State) (v : Word) :
    (s.acknowledge v).width = s.width := rfl

@[simp] theorem State.acknowledge_mr (s : State) (v : Word) :
    (s.acknowledge v).mr = s.mr := rfl

@[simp] theorem State.acknowledge_sr (s : State) (v : Word) :
    (s.acknowledge v).sr = s.sr := rfl

@[simp] theorem State.acknowledge_colbuf (s : State) (v : Word) :
    (s.acknowledge v).colbuf = s.colbuf := rfl

@[simp] theorem State.acknowledge_ill (s : State) (v : Word) :
    (s.acknowledge v).ill = (s.ill && !v.getLsbD 0) := rfl

@[simp] theorem State.acknowledge_fcmd (s : State) (v : Word) :
    (s.acknowledge v).fcmd = s.fcmd := rfl

@[simp] theorem State.acknowledge_inbox (s : State) (v : Word) :
    (s.acknowledge v).inbox = s.inbox := rfl

@[simp] theorem State.acknowledge_outbox (s : State) (v : Word) :
    (s.acknowledge v).outbox = s.outbox := rfl

@[simp] theorem State.acknowledge_resets (s : State) (v : Word) :
    (s.acknowledge v).resets = s.resets := rfl

@[simp] theorem State.respond_width (s : State) (r : Response) :
    (s.respond r).width = s.width := rfl

@[simp] theorem State.respond_mr (s : State) (r : Response) :
    (s.respond r).mr = s.mr := rfl

@[simp] theorem State.respond_sr (s : State) (r : Response) :
    (s.respond r).sr = s.sr := rfl

@[simp] theorem State.respond_colbuf (s : State) (r : Response) :
    (s.respond r).colbuf = s.colbuf := rfl

@[simp] theorem State.respond_ill (s : State) (r : Response) :
    (s.respond r).ill = s.ill := rfl

@[simp] theorem State.respond_fcmd (s : State) (r : Response) :
    (s.respond r).fcmd = s.fcmd := rfl

@[simp] theorem State.respond_inbox (s : State) (r : Response) :
    (s.respond r).inbox = s.inbox := rfl

@[simp] theorem State.respond_outbox (s : State) (r : Response) :
    (s.respond r).outbox = s.outbox ++ [r] := rfl

@[simp] theorem State.respond_resets (s : State) (r : Response) :
    (s.respond r).resets = s.resets := rfl

@[simp] theorem State.applyReset_width (s : State) : s.applyReset.width = s.width := rfl

@[simp] theorem State.applyReset_ill (s : State) : s.applyReset.ill = false := rfl

@[simp] theorem State.applyReset_fcmd (s : State) : s.applyReset.fcmd = 0 := rfl

@[simp] theorem State.applyReset_inbox (s : State) : s.applyReset.inbox = s.inbox := rfl

@[simp] theorem State.applyReset_outbox (s : State) : s.applyReset.outbox = s.outbox := rfl

@[simp] theorem State.applyReset_resets (s : State) : s.applyReset.resets = s.resets + 1 := rfl

end Sys2Proof.Machine
end

