-- ==== Sys2Proof/Laws/Ops.lean ====
section
/-! SUPPORT. What a read of a register gives after a write, and the bits of a word of a slot. -/

theorem Sys2Proof.Width.bits_pos (w : Sys2Proof.Width) : 0 < w.bits := by cases w <;> decide

theorem Sys2Proof.Width.bits_le (w : Sys2Proof.Width) : w.bits ≤ 128 := by cases w <;> decide

namespace Sys2Proof.Machine

theorem State.getSR_setSR (s : State) (r q : SReg) (v : Scalar) :
    (s.setSR r v).getSR q = if r = q then v else s.getSR q := by
  change (s.sr.set r.val v)[q.val] = _
  rw [Vector.getElem_set]
  simp only [Fin.ext_iff]
  rfl

theorem State.getMR_setMR (s : State) (r q : MReg) (M : BitMatrix s.width.bits) :
    (s.setMR r M).getMR q = if r = q then M else s.getMR q := by
  change (s.mr.set r.val M)[q.val] = _
  rw [Vector.getElem_set]
  simp only [Fin.ext_iff]
  rfl

theorem State.getColbuf_setColbuf (s : State) (i k : Fin s.width.bits)
    (v : BitVec s.width.bits) :
    (s.setColbuf i v).getColbuf k = if i = k then v else s.getColbuf k := by
  change (s.colbuf.set i.val v)[k.val] = _
  rw [Vector.getElem_set]
  simp only [Fin.ext_iff]
  rfl

@[simp] theorem State.getSR_setMR (s : State) (r : MReg) (q : SReg)
    (M : BitMatrix s.width.bits) : (s.setMR r M).getSR q = s.getSR q := rfl

@[simp] theorem State.mrSlot_setSR (s : State) (r : SReg) (q : MReg) (v : Scalar) (i : Nat) :
    (s.setSR r v).mrSlot q i = s.mrSlot q i := rfl

@[simp] theorem State.colbufSlot_setSR (s : State) (r : SReg) (v : Scalar) (i : Nat) :
    (s.setSR r v).colbufSlot i = s.colbufSlot i := rfl

@[simp] theorem State.colbufSlot_setMR (s : State) (r : MReg) (M : BitMatrix s.width.bits)
    (i : Nat) : (s.setMR r M).colbufSlot i = s.colbufSlot i := rfl

theorem State.mrSlot_setMR (s : State) (r q : MReg) (M : BitMatrix s.width.bits) (i : Nat) :
    (s.setMR r M).mrSlot q i = if r = q then (M.col i).setWidth 128 else s.mrSlot q i := by
  have h := s.getMR_setMR r q M
  unfold State.mrSlot
  split
  · rename_i e
    rw [if_pos e] at h
    exact congrArg (fun X : BitMatrix s.width.bits => (X.col i).setWidth 128) h
  · rename_i e
    rw [if_neg e] at h
    exact congrArg (fun X : BitMatrix s.width.bits => (X.col i).setWidth 128) h

/-- Bit `b` of word `j` of a slot is bit `32 j + b` of the value (R53). -/
theorem getLsbD_slotWord {W : Nat} (c : BitVec W) (j : Fin 4) (b : Nat) :
    (slotWord c j).getLsbD b = (decide (b < 32) && c.getLsbD (32 * j.val + b)) := by
  unfold slotWord
  by_cases h : W ≤ 32 * j.val
  · simp [h]
    intro _
    exact BitVec.getLsbD_of_ge _ _ (by omega)
  · simp only [h, if_false, BitVec.getLsbD_setWidth, BitVec.getLsbD_extractLsb']
    by_cases hb : b < 32
    · simp only [hb, decide_true, Bool.true_and]
      by_cases hlt : 32 * j.val + b < W
      · have : b < min (32 * j.val + 31) (W - 1) - 32 * j.val + 1 := by omega
        simp [this]
      · rw [BitVec.getLsbD_of_ge c _ (by omega)]
        simp
    · simp [hb]

/-- A write of word `j` of a slot puts bit `b` of the bus word into bit `32 j + b` of the value, where
the value has that bit, and leaves every other bit (R53 to R55). -/
theorem getLsbD_setSlotWord {W : Nat} (c : BitVec W) (j : Fin 4) (v : Word) (b : Nat)
    (hb : b < W) :
    (setSlotWord c j v).getLsbD b =
      if 32 * j.val ≤ b ∧ b < 32 * j.val + 32 then v.getLsbD (b - 32 * j.val)
      else c.getLsbD b := by
  unfold setSlotWord
  by_cases h : W ≤ 32 * j.val
  · have h2 : ¬ (32 * j.val ≤ b ∧ b < 32 * j.val + 32) := by omega
    simp [h, h2]
  · have hones : ∀ k, (0xFFFFFFFF#32).getLsbD k = decide (k < 32) := by
      intro k
      have e : (0xFFFFFFFF#32) = BitVec.allOnes 32 := by decide
      rw [e, BitVec.getLsbD_allOnes]
    simp only [h, if_false, BitVec.getLsbD_or, BitVec.getLsbD_and, BitVec.getLsbD_not,
      BitVec.getLsbD_shiftLeft, BitVec.getLsbD_setWidth, hones, hb, decide_true, Bool.true_and]
    by_cases h1 : b < 32 * j.val
    · have : ¬ (32 * j.val ≤ b ∧ b < 32 * j.val + 32) := by omega
      simp [h1, this]
    · have hk : b - 32 * j.val < W := by omega
      simp only [h1, hk, decide_false, decide_true, Bool.not_false, Bool.true_and]
      by_cases h2 : b < 32 * j.val + 32
      · have h3 : b - 32 * j.val < 32 := by omega
        have h4 : 32 * j.val ≤ b := by omega
        simp [h3, h2, h4]
      · have h3 : ¬ b - 32 * j.val < 32 := by omega
        have h4 : v.getLsbD (b - 32 * j.val) = false := BitVec.getLsbD_of_ge _ _ (by omega)
        simp [h3, h2, h4]

/-- A word of a slot read back after a write of that word is the word written, on the bits the value
has. -/
theorem slotWord_setSlotWord_scalar (c : Scalar) (j : Fin 4) (v : Word) :
    slotWord (setSlotWord c j v) j = v := by
  apply BitVec.eq_of_getLsbD_eq
  intro b hb
  rw [getLsbD_slotWord, getLsbD_setSlotWord _ _ _ _ (by omega)]
  have h2 : 32 * j.val + b < 32 * j.val + 32 := by omega
  simp [hb]

end Sys2Proof.Machine
end

