-- ==== Sys2Proof/Laws/Exec.lean ====
section
/-! SUPPORT. What executing a command can do, said once for all of them. -/

namespace Sys2Proof.Machine

/-- A command with a zero modulus stops; any other writes its destination register and nothing
else. -/
theorem exec_cases (i : Instr) (s : State) :
    (s.modulusOf i = some 0 ∧ exec i s = .fault .zeroModulus) ∨
    (s.modulusOf i ≠ some 0 ∧
      ((∃ d v, destinationOf i = .scalar d ∧ exec i s = .next (s.setSR d v)) ∨
       (∃ d M, destinationOf i = .matrix d ∧ exec i s = .next (s.setMR d M)))) := by
  cases i with
  | maMulmod n sd sa sb sm =>
    by_cases h : s.modularOperand n sm = 0
    · exact .inl ⟨by simp [State.modulusOf, h], by simp [exec, execMaMulmod, h]⟩
    · refine .inr ⟨by simp [State.modulusOf, h], .inl ⟨sd, ?_, rfl, ?_⟩⟩
      rotate_left
      · simp only [exec, execMaMulmod, if_neg h]
        rfl
  | maPowmod n sd sbase sn sm =>
    by_cases h : s.modularOperand n sm = 0
    · exact .inl ⟨by simp [State.modulusOf, h], by simp [exec, execMaPowmod, h]⟩
    · refine .inr ⟨by simp [State.modulusOf, h], .inl ⟨sd, ?_, rfl, ?_⟩⟩
      rotate_left
      · simp only [exec, execMaPowmod, if_neg h]
        rfl
  | maModulo n a sg sd sa sm =>
    by_cases h : s.modularOperand n sm = 0
    · exact .inl ⟨by simp [State.modulusOf, h], by simp [exec, execMaModulo, h]⟩
    · refine .inr ⟨by simp [State.modulusOf, h], .inl ⟨sd, ?_, rfl, ?_⟩⟩
      rotate_left
      · simp only [exec, execMaModulo, if_neg h]
        rfl
  | bmApply sd ma sv => exact .inr ⟨nofun, .inl ⟨sd, _, rfl, rfl⟩⟩
  | bmEq sd ma mb => exact .inr ⟨nofun, .inl ⟨sd, _, rfl, rfl⟩⟩
  | maWpow n sd sbase sn => exact .inr ⟨nofun, .inl ⟨sd, _, rfl, rfl⟩⟩
  | maWgeom n sd sr sn => exact .inr ⟨nofun, .inl ⟨sd, _, rfl, rfl⟩⟩
  | bmNew md => exact .inr ⟨nofun, .inr ⟨md, _, rfl, rfl⟩⟩
  | bmZero md => exact .inr ⟨nofun, .inr ⟨md, _, rfl, rfl⟩⟩
  | bmIdent md => exact .inr ⟨nofun, .inr ⟨md, _, rfl, rfl⟩⟩
  | bmShift md sk => exact .inr ⟨nofun, .inr ⟨md, _, rfl, rfl⟩⟩
  | bmCompose md ma mb => exact .inr ⟨nofun, .inr ⟨md, _, rfl, rfl⟩⟩
  | bmAdd md ma mb => exact .inr ⟨nofun, .inr ⟨md, _, rfl, rfl⟩⟩
  | bmAnd md ma smask => exact .inr ⟨nofun, .inr ⟨md, _, rfl, rfl⟩⟩
  | bmShl md ma sn => exact .inr ⟨nofun, .inr ⟨md, _, rfl, rfl⟩⟩
  | bmShr md ma sn => exact .inr ⟨nofun, .inr ⟨md, _, rfl, rfl⟩⟩
  | bmPow md ma sn => exact .inr ⟨nofun, .inr ⟨md, _, rfl, rfl⟩⟩

end Sys2Proof.Machine
end

