-- ==== Sys2Proof/Laws/Loop.lean ====
section
/-! SUPPORT. What the square and multiply loop computes. -/

namespace Sys2Proof.Machine

@[simp] theorem bitLength_zero : bitLength 0 = 0 := rfl

theorem bitLength_pos {n : Nat} (h : n ≠ 0) : bitLength n = bitLength (n / 2) + 1 := by
  unfold bitLength
  by_cases h2 : n / 2 = 0
  · have h1 : n = 1 := by omega
    subst h1
    decide
  · rw [if_neg h, if_neg h2, Nat.log2_def n, if_pos (by omega)]

theorem bitLength_le {n b : Nat} (h : n < 2 ^ b) : bitLength n ≤ b := by
  unfold bitLength
  split
  · omega
  · rename_i hn
    have := (Nat.log2_lt hn).2 h
    omega

/-- The loop through any map `φ` into a monoid that turns `mul` into the monoid's product: with
enough rounds it multiplies the image of `result` by the `e`-th power of the image of `base`. The
map is asked to respect `mul` only on values it holds `good` of, which `mul` must keep. -/
theorem squaringLoop_map {α M : Type} [Monoid M] (mul : α → α → α) (φ : α → M) (good : α → Prop)
    (hgood : ∀ x y, good x → good y → good (mul x y))
    (hφ : ∀ x y, good x → good y → φ (mul x y) = φ x * φ y) :
    ∀ (rounds e : Nat) (result base : α), bitLength e ≤ rounds → good result → good base →
      φ (squaringLoop mul rounds e result base) = φ result * φ base ^ e ∧
        good (squaringLoop mul rounds e result base) := by
  intro rounds
  induction rounds with
  | zero =>
    intro e result base h hr _
    have he : e = 0 := by
      by_contra he
      have := bitLength_pos he
      omega
    subst he
    simp [squaringLoop, hr]
  | succ rounds ih =>
    intro e result base h hr hb
    by_cases he : e = 0
    · subst he
      simp [squaringLoop, hr]
    · have hlen : bitLength (e / 2) ≤ rounds := by
        have := bitLength_pos he
        omega
      have hr' : good (if e % 2 = 1 then mul result base else result) := by
        split
        · exact hgood _ _ hr hb
        · exact hr
      have hb' : good (if e / 2 = 0 then base else mul base base) := by
        split
        · exact hb
        · exact hgood _ _ hb hb
      have step := ih (e / 2) _ _ hlen hr' hb'
      rw [squaringLoop, if_neg he]
      refine ⟨?_, step.2⟩
      rw [step.1]
      have hsq : φ (if e / 2 = 0 then base else mul base base) ^ (e / 2)
          = (φ base * φ base) ^ (e / 2) := by
        split
        · rename_i h0
          simp [h0]
        · rw [hφ _ _ hb hb]
      have hdiv : e = e % 2 + 2 * (e / 2) := by omega
      rw [hsq, ← pow_two, ← pow_mul]
      by_cases hodd : e % 2 = 1
      · rw [if_pos hodd, hφ _ _ hr hb, mul_assoc, ← pow_succ']
        congr 2
        omega
      · rw [if_neg hodd]
        congr 2
        omega

/-- `powerBySquaring` through such a map: the `n`-th power. -/
theorem powerBySquaring_map {α M : Type} [Monoid M] (mul : α → α → α) (φ : α → M)
    (good : α → Prop) (hgood : ∀ x y, good x → good y → good (mul x y))
    (hφ : ∀ x y, good x → good y → φ (mul x y) = φ x * φ y) (one base : α) (n : Nat)
    (h1 : good one) (hb : good base) :
    φ (powerBySquaring mul one base n) = φ one * φ base ^ n ∧
      good (powerBySquaring mul one base n) :=
  squaringLoop_map mul φ good hgood hφ _ n one base le_rfl h1 hb

end Sys2Proof.Machine
end

