-- ==== Sys2Proof/Laws/PerInstr.lean ====
section
/-! SUPPORT. Statements about every command as syntax, one lemma for each constructor. -/

namespace Sys2Proof.Laws.EncodesLegalFields

/-- The fields of a command's word break none of the conditions of R86. -/
def Statement (i : Instr) : Prop := (Fields.ofWord (encode i)).wellFormed = true

theorem of_fields {i : Instr} (h : i.fields.wellFormed = true) : Statement i := by
  unfold Statement encode
  rw [Fields.ofWord_toWord]
  exact h

theorem bmNew (md : MReg) : Statement (.bmNew md) := of_fields rfl

theorem bmZero (md : MReg) : Statement (.bmZero md) := of_fields rfl

theorem bmIdent (md : MReg) : Statement (.bmIdent md) := of_fields rfl

theorem bmShift (md : MReg) (sk : SReg) : Statement (.bmShift md sk) := of_fields rfl

theorem bmApply (sd : SReg) (ma : MReg) (sv : SReg) : Statement (.bmApply sd ma sv) :=
  of_fields rfl

theorem bmCompose (md ma mb : MReg) : Statement (.bmCompose md ma mb) := of_fields rfl

theorem bmAdd (md ma mb : MReg) : Statement (.bmAdd md ma mb) := of_fields rfl

theorem bmAnd (md ma : MReg) (smask : SReg) : Statement (.bmAnd md ma smask) := of_fields rfl

theorem bmShl (md ma : MReg) (sn : SReg) : Statement (.bmShl md ma sn) := of_fields rfl

theorem bmShr (md ma : MReg) (sn : SReg) : Statement (.bmShr md ma sn) := of_fields rfl

theorem bmPow (md ma : MReg) (sn : SReg) : Statement (.bmPow md ma sn) := of_fields rfl

theorem bmEq (sd : SReg) (ma mb : MReg) : Statement (.bmEq sd ma mb) := of_fields rfl

theorem maMulmod (n : Width) (sd sa sb sm : SReg) : Statement (.maMulmod n sd sa sb sm) :=
  of_fields (by cases n <;> rfl)

theorem maPowmod (n : Width) (sd sbase sn sm : SReg) :
    Statement (.maPowmod n sd sbase sn sm) :=
  of_fields (by cases n <;> rfl)

theorem maWpow (n : Width) (sd sbase sn : SReg) : Statement (.maWpow n sd sbase sn) :=
  of_fields (by cases n <;> rfl)

theorem maWgeom (n : Width) (sd sr sn : SReg) : Statement (.maWgeom n sd sr sn) :=
  of_fields (by cases n <;> rfl)

theorem maModulo (n a : Width) (sg : Signedness) (sd sa sm : SReg) :
    Statement (.maModulo n a sg sd sa sm) :=
  of_fields (by cases n <;> cases a <;> cases sg <;> rfl)

end Sys2Proof.Laws.EncodesLegalFields
end

