-- ==== Sys2Proof/Laws/Window.lean ====
section
/-! SUPPORT. Where the map of the window puts each address, and back. -/

namespace Sys2Proof.Machine

theorem Fin.ofNat_eq_of_val {n : Nat} [NeZero n] (k : Fin n) (m : Nat) (h : m % n = k.val) :
    Fin.ofNat n m = k := Fin.ext h

/-- The address of word `j` of `SR[r]` (R51). -/
theorem locate_scalar (W : Nat) (addr : WindowAddr) (r : SReg) (j : Fin 4)
    (h : addr.toNat = 0x0100 + 0x10 * r.val + 4 * j.val) : locate W addr = .sr r j := by
  have hr := r.isLt
  have hj := j.isLt
  unfold locate
  simp only [h]
  rw [if_neg (by omega), if_neg (by omega), if_pos (by omega),
    Fin.ofNat_eq_of_val r _ (by omega), Fin.ofNat_eq_of_val j _ (by omega)]

/-- The address of word `j` of `COLBUF[i]` (R51). -/
theorem locate_staged (W : Nat) (hW : W ≤ 128) (addr : WindowAddr) (i : Fin W) (j : Fin 4)
    (h : addr.toNat = 0x0800 + 0x10 * i.val + 4 * j.val) : locate W addr = .colbuf i j := by
  have hi := i.isLt
  have hj := j.isLt
  have hs : (addr.toNat - 0x0800) / 0x10 = i.val := by omega
  unfold locate
  simp only [hs, i.isLt, dif_pos]
  rw [if_neg (by omega), if_neg (by omega), if_neg (by omega), if_neg (by omega),
    if_pos (by omega), Fin.ofNat_eq_of_val j _ (by omega)]

/-- The address of word `j` of `MR[r].col[i]` (R51). -/
theorem locate_matrix (W : Nat) (hW : W ≤ 128) (addr : WindowAddr) (r : MReg) (i : Fin W)
    (j : Fin 4) (h : addr.toNat = 0x8000 + 0x800 * r.val + 0x10 * i.val + 4 * j.val) :
    locate W addr = .mr r i j := by
  have hr := r.isLt
  have hi := i.isLt
  have hj := j.isLt
  have hs : (addr.toNat - 0x8000) % 0x800 / 0x10 = i.val := by omega
  unfold locate
  simp only [hs, i.isLt, dif_pos]
  rw [if_neg (by omega), if_neg (by omega), if_neg (by omega), if_neg (by omega),
    if_neg (by omega), if_neg (by omega), Fin.ofNat_eq_of_val r _ (by omega),
    Fin.ofNat_eq_of_val j _ (by omega)]

/-- What the map says of an address that is a multiple of 4, read backwards: each location with the
addresses that reach it (R51). -/
theorem locate_cases (W : Nat) (addr : WindowAddr) (h4 : addr.toNat % 4 = 0) :
    (locate W addr = .id ∧ addr.toNat = 0) ∨
    (locate W addr = .status ∧ addr.toNat = 4) ∨
    (locate W addr = .cmd ∧ addr.toNat = 8) ∨
    (locate W addr = .fcmd ∧ addr.toNat = 12) ∨
    (∃ r j, locate W addr = .sr r j ∧ addr.toNat = 0x0100 + 0x10 * r.val + 4 * j.val) ∨
    (∃ i j, locate W addr = .colbuf i j ∧ addr.toNat = 0x0800 + 0x10 * i.val + 4 * j.val ∧
      addr.toNat < 0x1000) ∨
    (∃ r i j, locate W addr = .mr r i j ∧
      addr.toNat = 0x8000 + 0x800 * r.val + 0x10 * i.val + 4 * j.val ∧ i.val < 128) ∨
    (locate W addr = .unmapped ∧
      ((0x0010 ≤ addr.toNat ∧ addr.toNat < 0x0100) ∨
       (0x0200 ≤ addr.toNat ∧ addr.toNat < 0x0800) ∨
       (0x0800 + 0x10 * W ≤ addr.toNat ∧ addr.toNat < 0x1000) ∨
       (0x1000 ≤ addr.toNat ∧ addr.toNat < 0x8000) ∨
       (0x8000 ≤ addr.toNat ∧ 0x10 * W ≤ (addr.toNat - 0x8000) % 0x800))) := by
  have hlt := addr.isLt
  unfold locate
  generalize addr.toNat = a at *
  simp only
  by_cases h1 : a < 0x0010
  · rw [if_pos h1]
    have : a = 0 ∨ a = 4 ∨ a = 8 ∨ a = 12 := by omega
    rcases this with rfl | rfl | rfl | rfl <;> simp [locateControl]
  rw [if_neg h1]
  by_cases h2 : a < 0x0100
  · rw [if_pos h2]
    refine .inr (.inr (.inr (.inr (.inr (.inr (.inr ⟨rfl, ?_⟩))))))
    omega
  rw [if_neg h2]
  by_cases h3 : a < 0x0200
  · rw [if_pos h3]
    refine .inr (.inr (.inr (.inr (.inl ⟨_, _, rfl, ?_⟩))))
    simp only [Fin.ofNat]
    omega
  rw [if_neg h3]
  by_cases h4' : a < 0x0800
  · rw [if_pos h4']
    refine .inr (.inr (.inr (.inr (.inr (.inr (.inr ⟨rfl, ?_⟩))))))
    omega
  rw [if_neg h4']
  by_cases h5 : a < 0x1000
  · rw [if_pos h5]
    by_cases hi : (a - 0x0800) / 0x10 < W
    · rw [dif_pos hi]
      refine .inr (.inr (.inr (.inr (.inr (.inl ⟨_, _, rfl, ?_, h5⟩)))))
      simp only [Fin.ofNat]
      omega
    · rw [dif_neg hi]
      refine .inr (.inr (.inr (.inr (.inr (.inr (.inr ⟨rfl, ?_⟩))))))
      omega
  rw [if_neg h5]
  by_cases h6 : a < 0x8000
  · rw [if_pos h6]
    refine .inr (.inr (.inr (.inr (.inr (.inr (.inr ⟨rfl, ?_⟩))))))
    omega
  rw [if_neg h6]
  by_cases hi : (a - 0x8000) % 0x800 / 0x10 < W
  · rw [dif_pos hi]
    refine .inr (.inr (.inr (.inr (.inr (.inr (.inl ⟨_, _, _, rfl, ?_, ?_⟩))))))
    · simp only [Fin.ofNat]
      omega
    · simp only
      omega
  · rw [dif_neg hi]
    refine .inr (.inr (.inr (.inr (.inr (.inr (.inr ⟨rfl, ?_⟩))))))
    omega

theorem accessShapeOk_iff (size : AccessSize) (addr : WindowAddr) :
    accessShapeOk size addr = true ↔ size = .bits 32 ∧ addr.toNat % 4 = 0 := by
  simp [accessShapeOk]

end Sys2Proof.Machine
end

