-- ==== Sys2Proof/Laws/Port.lean ====
section
/-! SUPPORT. What a write of the window and a step can do, said once. -/

namespace Sys2Proof.Machine

theorem step_of_inbox {s : State} {event : HostEvent} {rest : List HostEvent}
    (h : s.inbox = event :: rest) :
    step s = ({ s with inbox := rest } : State).serve event := by
  unfold step State.advance
  rw [h]

theorem step_of_empty {s : State} (h : s.inbox = []) : step s = .next s := by
  unfold step State.advance
  rw [h]

/-- Issuing a word: rejected and recorded, or executed, which stops only on a zero modulus. -/
theorem State.issue_cases (s : State) (cw : Word) :
    (∃ why, decode cw = .error why ∧ s.issue cw = .next ((s.raiseIllegal cw).respond .error)) ∨
    (∃ i, decode cw = .ok i ∧
      ((s.modulusOf i = some 0 ∧ s.issue cw = .fault .zeroModulus) ∨
       (s.modulusOf i ≠ some 0 ∧
        ((∃ d v, destinationOf i = .scalar d ∧ exec i s = .next (s.setSR d v) ∧
            s.issue cw = .next ((s.setSR d v).respond .okay)) ∨
         (∃ d M, destinationOf i = .matrix d ∧ exec i s = .next (s.setMR d M) ∧
            s.issue cw = .next ((s.setMR d M).respond .okay)))))) := by
  unfold State.issue
  cases hd : decode cw with
  | error why => exact .inl ⟨why, rfl, rfl⟩
  | ok i =>
    refine .inr ⟨i, rfl, ?_⟩
    rcases exec_cases i s with ⟨hm, he⟩ | ⟨hm, ⟨d, v, hd, he⟩ | ⟨d, M, hd, he⟩⟩
    · exact .inl ⟨hm, by simp only [he, okayAfter]⟩
    · exact .inr ⟨hm, .inl ⟨d, v, hd, he, by simp only [he, okayAfter]⟩⟩
    · exact .inr ⟨hm, .inr ⟨d, M, hd, he, by simp only [he, okayAfter]⟩⟩

/-- A write of the window: refused with no effect, an acknowledgement, a word of a scalar register or
of COLBUF stored, or a command issued. -/
theorem State.hostWrite_cases (s : State) (size : AccessSize) (addr : WindowAddr) (v : Word) :
    s.hostWrite size addr v = .next (s.respond .error) ∨
    (size = .bits 32 ∧ addr.toNat = 4 ∧
      s.hostWrite size addr v = .next ((s.acknowledge v).respond .okay)) ∨
    (∃ r w, s.hostWrite size addr v = .next ((s.setSR r w).respond .okay)) ∨
    (∃ i w, s.hostWrite size addr v = .next ((s.setColbuf i w).respond .okay)) ∨
    (size = .bits 32 ∧ addr = cmdAddr ∧ s.hostWrite size addr v = s.issue v) := by
  unfold State.hostWrite
  by_cases hok : accessShapeOk size addr = true
  · rw [if_pos hok]
    obtain ⟨hs, h4⟩ := (accessShapeOk_iff size addr).1 hok
    rcases locate_cases s.width.bits addr h4 with
      ⟨h, _⟩ | ⟨h, ha⟩ | ⟨h, ha⟩ | ⟨h, _⟩ | ⟨r, j, h, _⟩ | ⟨i, j, h, _⟩ | ⟨r, i, j, h, _⟩ | ⟨h, _⟩
    · exact .inl (by rw [h]; rfl)
    · exact .inr (.inl ⟨hs, ha, by rw [h]; rfl⟩)
    · exact .inr (.inr (.inr (.inr ⟨hs, BitVec.eq_of_toNat_eq (by simpa [cmdAddr] using ha),
        by rw [h]; rfl⟩)))
    · exact .inl (by rw [h]; rfl)
    · exact .inr (.inr (.inl ⟨r, _, by rw [h]; rfl⟩))
    · exact .inr (.inr (.inr (.inl ⟨i, _, by rw [h]; rfl⟩)))
    · exact .inl (by rw [h]; rfl)
    · exact .inl (by rw [h]; rfl)
  · rw [if_neg hok]
    exact .inl rfl

theorem State.hostWrite_cmd (s : State) (cw : Word) :
    s.hostWrite (.bits 32) cmdAddr cw = s.issue cw := rfl

/-- What one transaction can do to the state before its response is given, with the transactions that
can do it. -/
inductive Effect (s : State) : HostEvent → State → Prop where
  | nothing (event : HostEvent) : Effect s event s
  | acknowledged (v : Word) : Effect s (.write (.bits 32) 0x0004 v) (s.acknowledge v)
  | scalarWritten (size : AccessSize) (addr : WindowAddr) (v : Word) (r : SReg) (x : Scalar) :
      Effect s (.write size addr v) (s.setSR r x)
  | stagedWritten (size : AccessSize) (addr : WindowAddr) (v : Word) (i : Fin s.width.bits)
      (x : BitVec s.width.bits) : Effect s (.write size addr v) (s.setColbuf i x)
  | matrixWritten (cw : Word) (r : MReg) (M : BitMatrix s.width.bits) :
      Effect s (.write (.bits 32) cmdAddr cw) (s.setMR r M)
  | illegalRecorded (cw : Word) (why : IllegalReason) (h : decode cw = .error why) :
      Effect s (.write (.bits 32) cmdAddr cw) (s.raiseIllegal cw)

theorem State.hostWrite_effect (s t : State) (size : AccessSize) (addr : WindowAddr) (v : Word)
    (h : s.hostWrite size addr v = .next t) :
    ∃ u r, Effect s (.write size addr v) u ∧ t = u.respond r := by
  rcases s.hostWrite_cases size addr v with
    he | ⟨hs, ha, he⟩ | ⟨r, w, he⟩ | ⟨i, w, he⟩ | ⟨hs, ha, he⟩
  · rw [he] at h
    cases h
    exact ⟨s, _, .nothing _, rfl⟩
  · rw [he] at h
    cases h
    subst hs
    have ha' : addr = 0x0004 := BitVec.eq_of_toNat_eq ha
    subst ha'
    exact ⟨_, _, .acknowledged v, rfl⟩
  · rw [he] at h
    cases h
    exact ⟨_, _, .scalarWritten size addr v r w, rfl⟩
  · rw [he] at h
    cases h
    exact ⟨_, _, .stagedWritten size addr v i w, rfl⟩
  · subst hs
    subst ha
    rw [he] at h
    rcases s.issue_cases v with
      ⟨why, hd, hi⟩ | ⟨i, _, ⟨_, hi⟩ | ⟨_, ⟨d, x, _, _, hi⟩ | ⟨d, M, _, _, hi⟩⟩⟩
    · rw [hi] at h
      cases h
      exact ⟨_, _, .illegalRecorded v why hd, rfl⟩
    · rw [hi] at h
      cases h
    · rw [hi] at h
      cases h
      exact ⟨_, _, .scalarWritten _ _ v d x, rfl⟩
    · rw [hi] at h
      cases h
      exact ⟨_, _, .matrixWritten v d M, rfl⟩

/-- What a step that ends in a next state can have done: held, reset, or served one transaction with
one of its effects and one response. -/
theorem step_cases {s t : State} (h : step s = .next t) :
    (s.inbox = [] ∧ t = s) ∨
    (∃ cut rest, s.inbox = .reset cut :: rest ∧
      t = ({ s with inbox := rest } : State).applyReset) ∨
    (∃ event rest u r, s.inbox = event :: rest ∧ Effect { s with inbox := rest } event u ∧
      (∀ cut, event ≠ .reset cut) ∧ t = u.respond r) := by
  cases hin : s.inbox with
  | nil =>
    rw [step_of_empty hin] at h
    cases h
    exact .inl ⟨rfl, rfl⟩
  | cons event rest =>
    rw [step_of_inbox hin] at h
    cases event with
    | reset cut =>
      cases h
      exact .inr (.inl ⟨cut, rest, rfl, rfl⟩)
    | read size addr =>
      cases h
      exact .inr (.inr ⟨_, rest, _, _, rfl, .nothing _, nofun, rfl⟩)
    | write size addr v =>
      obtain ⟨u, r, he, ht⟩ := State.hostWrite_effect _ t size addr v h
      exact .inr (.inr ⟨_, rest, u, r, rfl, he, nofun, ht⟩)

/-- A run goes on from the next state. -/
theorem run_of_next {s t : State} (k : Nat) (h : step s = .next t) :
    core.run (k + 1) s = core.run k t := by
  have hc : core.step s = .next t := h
  simp only [Host.Core.run, hc]

/-- A run ends at a fault. -/
theorem run_of_fault {s : State} {f : Fault} (k : Nat) (h : step s = .fault f) :
    core.run (k + 1) s = .fault f := by
  have hc : core.step s = .fault f := h
  simp only [Host.Core.run, hc]

/-- No effect touches the port, the dimension or the reset counter. -/
theorem Effect.keeps {s u : State} {event : HostEvent} (h : Effect s event u) :
    u.width = s.width ∧ u.inbox = s.inbox ∧ u.outbox = s.outbox ∧ u.resets = s.resets := by
  cases h <;> exact ⟨rfl, rfl, rfl, rfl⟩

end Sys2Proof.Machine
end

