-- ==== Sys2Proof/Tests/Slice0.lean ====
section
/-! SUPPORT. The model's own tests. Every expected value is taken from spec/95_test_vectors.md, whose
section a test names, or worked out by hand from the rule it names. Then, for every obligation with
hypotheses, a state and operands that meet them. -/

namespace Sys2Proof.Tests

open Sys2Proof.Machine

/-! ## Helpers -/

/-- Hardware of a dimension with every register 0 and nothing to come. -/
def blank (w : Width) : State :=
  .resetWith w (Vector.replicate 16 (BitMatrix.zero _)) (Vector.replicate 16 0)
    (Vector.replicate _ 0)

/-- A matrix from its columns, column 0 first. -/
def matrix (W : Nat) (cols : List Nat) : BitMatrix W :=
  .ofCols fun i => BitVec.ofNat W (cols.getD i 0)

/-- A state with a scalar register set. -/
def withS (s : State) (r : SReg) (v : Nat) : State := s.setSR r (BitVec.ofNat 128 v)

/-- A state with a matrix register set. -/
def withM (s : State) (r : MReg) (cols : List Nat) : State := s.setMR r (matrix _ cols)

/-- A state with events to come. -/
def withEvents (s : State) (events : List HostEvent) : State := { s with inbox := events }

/-- What is seen of an outcome, if it is a next state. -/
def seen {α : Type} (o : Host.Outcome State Fault Refusal) (f : State → α) : Option α :=
  match o with
  | .next t => some (f t)
  | .fault _ => none
  | .refused _ => none

/-- An outcome is the model fault of a zero modulus. -/
def stopsOnZeroModulus (o : Host.Outcome State Fault Refusal) : Bool :=
  match o with
  | .next _ => false
  | .fault .zeroModulus => true
  | .refused _ => false

/-- The columns of a matrix register. -/
def columns (r : MReg) (t : State) : List Nat :=
  (List.range t.width.bits).map fun i => ((t.getMR r).col i).toNat

/-- A scalar register. -/
def scalar (r : SReg) (t : State) : Nat := (t.getSR r).toNat

/-- The responses, STATUS.ILL and FCMD. -/
def port (t : State) : List Response × Bool × Word := (t.outbox, t.ill, t.fcmd)

/-- The columns of `X` of section 2.3.1. -/
def colsX : List Nat := [0x09, 0x12, 0x2D, 0x5A, 0xB4, 0x68, 0xD0, 0xA0]

/-- The columns of `P` of section 2.3.1. -/
def colsP : List Nat := [0x09, 0x12, 0x24, 0x48, 0x90, 0x20, 0x40, 0x80]

/-- The columns of `Q` of section 2.3.1. -/
def colsQ : List Nat := [0x01, 0x02, 0x05, 0x0A, 0x14, 0x28, 0x50, 0xA0]

/-- `W = 8`, with `P` in m2, `Q` in m3 and `X` in m4. -/
def small : State := withM (withM (withM (blank .w8) 2 colsP) 3 colsQ) 4 colsX

/-! ## Well-formedness: an ill-formed term for each check (R86) -/

/-- The fields of a legal word of each format. -/
def fieldsM0 : Fields := .ofWord 0x04003000
def fieldsM1 : Fields := .ofWord 0x10001000
def fieldsM2 : Fields := .ofWord 0x14002100
def fieldsA2 : Fields := .ofWord 0x49804010
def fieldsA3 : Fields := .ofWord 0x41003012
def fieldsAM : Fields := .ofWord 0x51381020

theorem test_wellFormed_accepts_each_format :
    [fieldsM0, fieldsM1, fieldsM2, fieldsA2, fieldsA3, fieldsAM].all (·.wellFormed) = true := by
  decide

theorem test_wellFormed_refuses_unknown_op :
    ([0x00, 0x0D, 0x0E, 0x0F, 0x15, 0x3F].map fun op =>
      ({ fieldsM0 with op := BitVec.ofNat 6 op } : Fields).wellFormed) =
        [false, false, false, false, false, false] := by
  decide

theorem test_wellFormed_refuses_unused_M0 :
    [{ fieldsM0 with sz := 1 }, { fieldsM0 with asz := 1 }, { fieldsM0 with sg := 1 },
     { fieldsM0 with z := 1 }, { fieldsM0 with ra := 1 }, { fieldsM0 with rb := 1 },
     { fieldsM0 with rc := 1 }].all (!·.wellFormed) = true := by
  decide

theorem test_wellFormed_refuses_unused_M1 :
    [{ fieldsM1 with sz := 1 }, { fieldsM1 with asz := 1 }, { fieldsM1 with sg := 1 },
     { fieldsM1 with z := 1 }, { fieldsM1 with rb := 1 },
     { fieldsM1 with rc := 1 }].all (!·.wellFormed) = true := by
  decide

theorem test_wellFormed_refuses_unused_M2 :
    [{ fieldsM2 with sz := 1 }, { fieldsM2 with asz := 1 }, { fieldsM2 with sg := 1 },
     { fieldsM2 with z := 1 }, { fieldsM2 with rc := 1 }].all (!·.wellFormed) = true := by
  decide

theorem test_wellFormed_refuses_unused_A2 :
    [{ fieldsA2 with asz := 1 }, { fieldsA2 with sg := 1 }, { fieldsA2 with z := 1 },
     { fieldsA2 with rc := 1 }].all (!·.wellFormed) = true := by
  decide

theorem test_wellFormed_refuses_unused_A3 :
    [{ fieldsA3 with asz := 1 }, { fieldsA3 with sg := 1 },
     { fieldsA3 with z := 1 }].all (!·.wellFormed) = true := by
  decide

theorem test_wellFormed_refuses_unused_AM :
    [{ fieldsAM with z := 4 }, { fieldsAM with rc := 1 }].all (!·.wellFormed) = true := by
  decide

theorem test_wellFormed_refuses_reserved_sz :
    [{ fieldsA2 with sz := 5 }, { fieldsA3 with sz := 6 },
     { fieldsAM with sz := 7 }].all (!·.wellFormed) = true := by
  decide

theorem test_wellFormed_refuses_reserved_asz :
    [{ fieldsAM with asz := 5 }, { fieldsAM with asz := 6 },
     { fieldsAM with asz := 7 }].all (!·.wellFormed) = true := by
  decide

/-! ## Decoding: words written out from R81 to R84, and the words of section 2.1 -/

/-- A word from its nine fields in the order of R81, most significant first. -/
def wordOf (op : BitVec 6) (sz asz : BitVec 3) (sg : BitVec 1) (z : BitVec 3)
    (rd ra rb rc : BitVec 4) : Word :=
  op ++ sz ++ asz ++ sg ++ z ++ rd ++ ra ++ rb ++ rc

/-- Format M0, bit by bit: 0x04 for BM.NEW in bits 31..26 is 000001. -/
theorem test_decode_bits_M0 :
    decode (wordOf 0b000001 0b000 0b000 0b0 0b000 0b1010 0b0000 0b0000 0b0000) =
      .ok (.bmNew 10) := by decide

theorem test_decode_bits_M1 :
    decode (wordOf 0b000100 0b000 0b000 0b0 0b000 0b1010 0b0101 0b0000 0b0000) =
      .ok (.bmShift 10 5) := by decide

theorem test_decode_bits_M2 :
    decode (wordOf 0b000110 0b000 0b000 0b0 0b000 0b1010 0b0101 0b0011 0b0000) =
      .ok (.bmCompose 10 5 3) := by decide

theorem test_decode_bits_A2 :
    decode (wordOf 0b010010 0b001 0b000 0b0 0b000 0b1010 0b0101 0b0011 0b0000) =
      .ok (.maWpow .w16 10 5 3) := by decide

theorem test_decode_bits_A3 :
    decode (wordOf 0b010000 0b100 0b000 0b0 0b000 0b1010 0b0101 0b0011 0b1100) =
      .ok (.maMulmod .w128 10 5 3 12) := by decide

theorem test_decode_bits_AM :
    decode (wordOf 0b010100 0b011 0b001 0b1 0b000 0b1010 0b0101 0b0011 0b0000) =
      .ok (.maModulo .w64 .w16 .signed 10 5 3) := by decide

theorem test_decode_bmNew : decode 0x0400F000 = .ok (.bmNew 15) := by decide
theorem test_decode_bmZero : decode 0x08007000 = .ok (.bmZero 7) := by decide
theorem test_decode_bmIdent : decode 0x0C000000 = .ok (.bmIdent 0) := by decide
theorem test_decode_bmShift : decode 0x10001000 = .ok (.bmShift 1 0) := by decide
theorem test_decode_bmApply : decode 0x14002100 = .ok (.bmApply 2 1 0) := by decide
theorem test_decode_bmCompose : decode 0x18003120 = .ok (.bmCompose 3 1 2) := by decide
theorem test_decode_bmSquare : decode 0x18001110 = .ok (.bmSquare 1 1) := by decide
theorem test_decode_bmAdd : decode 0x1C002010 = .ok (.bmAdd 2 0 1) := by decide
theorem test_decode_bmAnd : decode 0x20001040 = .ok (.bmAnd 1 0 4) := by decide
theorem test_decode_bmShl : decode 0x24001000 = .ok (.bmShl 1 0 0) := by decide
theorem test_decode_bmShr : decode 0x28001000 = .ok (.bmShr 1 0 0) := by decide
theorem test_decode_bmPow : decode 0x2C005430 = .ok (.bmPow 5 4 3) := by decide
theorem test_decode_bmEq : decode 0x30009010 = .ok (.bmEq 9 0 1) := by decide
theorem test_decode_maMulmod : decode 0x41003012 = .ok (.maMulmod .w32 3 0 1 2) := by decide
theorem test_decode_maPowmod : decode 0x45003012 = .ok (.maPowmod .w32 3 0 1 2) := by decide
theorem test_decode_maWpow : decode 0x49804010 = .ok (.maWpow .w64 4 0 1) := by decide
theorem test_decode_maWgeom : decode 0x4D002010 = .ok (.maWgeom .w32 2 0 1) := by decide
theorem test_decode_maModulo :
    decode 0x51381020 = .ok (.maModulo .w32 .w64 .signed 1 0 2) ∧
      decode 0x51C81020 = .ok (.maModulo .w64 .w128 .signed 1 0 2) := by decide

theorem test_decode_rejects_unknown_op :
    [0x00000000, 0xFFFFFFFF, 0x34000000, 0x3C000000, 0x54000000].all
      (fun cw => decode cw = .error .unknownOp ∨ decode cw = .error .mustBeZero) = true := by
  decide

theorem test_decode_rejects_must_be_zero :
    [0x04000001, 0x04010000, 0x0C800000, 0x10000010, 0x14000001, 0x18004231, 0x40100000,
     0x40080000, 0x48000001, 0x4C080000, 0x50040000].all
      (fun cw => decode cw = .error .mustBeZero) = true := by
  decide

theorem test_decode_rejects_reserved_widths :
    decode 0x42800000 = .error .reservedSz ∧ decode 0x50500000 = .error .reservedAsz := by
  decide

theorem test_encode_writes_the_words_of_the_spec :
    encode (.bmPow 5 4 3) = 0x2C005430 ∧ encode (.maMulmod .w128 15 15 15 15) = 0x4200FFFF ∧
      encode (.maModulo .w128 .w128 .signed 15 15 15) = 0x5248FFF0 ∧
      encode (.maWpow .w8 0 0 0) = 0x48000000 := by
  decide

theorem test_table_word_is_decoded :
    decodeTableWord 32 0x30005000 = some (.bmEq 5 0 0) ∧ decodeTableWord 32 0x34000000 = none := by
  decide

/-! ## The commands: one step each, at most two tests a command -/

/-- R130: the copy is not followed by a later write of COLBUF (program P2, steps 3 and 18). -/
theorem test_bmNew_copies_colbuf :
    seen (exec (.bmNew 6) { blank .w8 with colbuf := (matrix 8 colsX).cols }) (columns 6) =
      some colsX := by decide

theorem test_bmZero : seen (exec (.bmZero 4) small) (columns 4) =
    some [0, 0, 0, 0, 0, 0, 0, 0] := by decide

theorem test_bmIdent : seen (exec (.bmIdent 4) small) (columns 4) =
    some [0x01, 0x02, 0x04, 0x08, 0x10, 0x20, 0x40, 0x80] := by decide

/-- Section 2.3.1, `shift(-2)`: the amount is the whole register, in two's complement. -/
theorem test_bmShift_right : seen (exec (.bmShift 2 0) (withS small 0 (2 ^ 128 - 2))) (columns 2) =
    some [0x00, 0x00, 0x01, 0x02, 0x04, 0x08, 0x10, 0x20] := by decide

/-- Section 2.3.1, `shift(3)` and `shift(-2^127)`. -/
theorem test_bmShift_left_and_extreme :
    seen (exec (.bmShift 2 0) (withS small 0 3)) (columns 2) =
      some [0x08, 0x10, 0x20, 0x40, 0x80, 0x00, 0x00, 0x00] ∧
    seen (exec (.bmShift 2 0) (withS small 0 (2 ^ 127))) (columns 2) =
      some [0, 0, 0, 0, 0, 0, 0, 0] := by decide

/-- Section 2.3.1, `apply(X, 0xA5)`, with a bit of the source above `W` that is ignored and bits of
the destination that are cleared. -/
theorem test_bmApply_reads_the_low_bits :
    seen (exec (.bmApply 0 4 0) (withS small 0 (2 ^ 127 + 0x1A5))) (scalar 0) = some 0xEC := by
  decide

/-- Section 2.3.4: `shift(10)` applied to 0x1_FFFFFFFF at `W = 32`. -/
theorem test_bmApply_at_32 :
    seen (exec (.bmApply 0 1 0)
      (withS ((blank .w32).setMR 1 (BitMatrix.shift 32 10)) 0 0x1FFFFFFFF)) (scalar 0) =
        some 0xFFFFFC00 := by decide

/-- Section 2.3.1, `X` and `Y`: the operands are not exchanged. -/
theorem test_bmCompose_order :
    seen (exec (.bmCompose 4 2 3) small) (columns 4) = some colsX ∧
    seen (exec (.bmCompose 4 3 2) small) (columns 4) =
      some [0x0B, 0x16, 0x2D, 0x5A, 0xB4, 0x28, 0x50, 0xA0] := by decide

/-- Section 2.3.1, `compose(X, X)`, with the destination as both sources. -/
theorem test_bmCompose_in_place : seen (exec (.bmSquare 4 4) small) (columns 4) =
    some [0x53, 0xA6, 0x16, 0x2C, 0x51, 0xE2, 0xC4, 0xC8] := by decide

/-- R136 by hand from the columns of `P` and `Q`. -/
theorem test_bmAdd : seen (exec (.bmAdd 0 2 3) small) (columns 0) =
    some [0x08, 0x10, 0x21, 0x42, 0x84, 0x08, 0x10, 0x20] := by decide

/-- Section 2.3.1, `bitand(X, 0x0F)`, with bits of the mask above `W`. -/
theorem test_bmAnd : seen (exec (.bmAnd 4 4 0) (withS small 0 0xF0F)) (columns 4) =
    some [0x09, 0x02, 0x0D, 0x0A, 0x04, 0x08, 0x00, 0x00] := by decide

/-- Section 2.3.1, `shl(X, 4)` and `shl(X, 2^128 - 1)`. -/
theorem test_bmShl :
    seen (exec (.bmShl 4 4 0) (withS small 0 4)) (columns 4) =
      some [0x90, 0x20, 0xD0, 0xA0, 0x40, 0x80, 0x00, 0x00] ∧
    seen (exec (.bmShl 4 4 0) (withS small 0 (2 ^ 128 - 1))) (columns 4) =
      some [0, 0, 0, 0, 0, 0, 0, 0] := by decide

/-- Section 2.3.1, `shr(X, 4)` and `shr(X, 8)`. -/
theorem test_bmShr :
    seen (exec (.bmShr 4 4 0) (withS small 0 4)) (columns 4) =
      some [0x00, 0x01, 0x02, 0x05, 0x0B, 0x06, 0x0D, 0x0A] ∧
    seen (exec (.bmShr 4 4 0) (withS small 0 8)) (columns 4) =
      some [0, 0, 0, 0, 0, 0, 0, 0] := by decide

/-- Section 2.3.1, `pow(X, 10)`. -/
theorem test_bmPow : seen (exec (.bmPow 0 4 0) (withS small 0 10)) (columns 0) =
    some [0x33, 0x3C, 0xF7, 0xF4, 0x97, 0xAA, 0xDE, 0xE8] := by decide

/-- Section 2.3.1, `pow(X, 255)`, in place, and `pow(X, 0)`. -/
theorem test_bmPow_in_place_and_zero :
    seen (exec (.bmPow 4 4 0) (withS small 0 255)) (columns 4) =
      some [0x21, 0x4A, 0xA4, 0x40, 0xD2, 0x20, 0x08, 0x80] ∧
    seen (exec (.bmPow 4 4 1) small) (columns 4) =
      some [0x01, 0x02, 0x04, 0x08, 0x10, 0x20, 0x40, 0x80] := by decide

/-- Section 2.3.4, and all 128 bits of the destination are written. -/
theorem test_bmEq :
    seen (exec (.bmEq 9 4 4) (withS small 9 (2 ^ 128 - 1))) (scalar 9) = some 1 ∧
    seen (exec (.bmEq 9 4 3) (withS small 9 (2 ^ 128 - 1))) (scalar 9) = some 0 := by decide

/-- Section 2.4.6, first row: bits above bit 7 are ignored. -/
theorem test_maMulmod_8 :
    seen (exec (.maMulmod .w8 4 0 1 2) (withS (withS (withS small 0 0x1C8) 1 0x101) 2 0x10D))
      (scalar 4) = some 5 := by decide

/-- The document's one numeric example (S4). -/
theorem test_maMulmod_32 :
    seen (exec (.maMulmod .w32 3 0 1 2)
      (withS (withS (withS small 0 123456789) 1 3111222333) 2 0x9068FFFF)) (scalar 3) =
        some 1473911797 := by decide

set_option maxRecDepth 8192 in
/-- Section 2.4.6: bits of the exponent above bit 63 count. -/
theorem test_maPowmod_long_exponent :
    seen (exec (.maPowmod .w8 3 0 1 2) (withS (withS (withS small 0 3) 1 (2 ^ 64 + 2)) 2 251))
      (scalar 3) = some 122 := by decide

/-- Section 2.4.2: `5^0 mod 1` is the unreduced 1, and `5^1 mod 1` is 0. -/
theorem test_maPowmod_corners :
    seen (exec (.maPowmod .w8 3 0 1 2) (withS (withS small 0 5) 2 1)) (scalar 3) = some 1 ∧
    seen (exec (.maPowmod .w8 3 0 1 2) (withS (withS (withS small 0 5) 1 1) 2 1)) (scalar 3) =
      some 0 := by decide

/-- Section 2.4.6: the upper bits of the destination are cleared. -/
theorem test_maWpow_clears_the_upper_bits :
    seen (exec (.maWpow .w8 5 0 1) (withS (withS (withS small 5 (2 ^ 128 - 1)) 0 3) 1 5))
      (scalar 5) = some 0xF3 := by decide

/-- Section 2.4.3: `69069^2` at the widths 32 and 64. -/
theorem test_maWpow_widths :
    seen (exec (.maWpow .w32 4 0 1) (withS (withS small 0 69069) 1 2)) (scalar 4) =
      some 475559465 ∧
    seen (exec (.maWpow .w64 4 0 1) (withS (withS small 0 69069) 1 2)) (scalar 4) =
      some 4770526761 := by decide

/-- Section 2.4.4: 1 + 7 + 49, and no term. -/
theorem test_maWgeom :
    seen (exec (.maWgeom .w8 2 0 1) (withS (withS small 0 7) 1 3)) (scalar 2) = some 57 ∧
    seen (exec (.maWgeom .w8 2 0 1) (withS small 0 7)) (scalar 2) = some 0 := by decide

set_option maxRecDepth 8192 in
/-- Section 2.4.4: bits of the term count above bit 63 count. -/
theorem test_maWgeom_long_count :
    seen (exec (.maWgeom .w8 2 0 1) (withS (withS small 0 3) 1 (2 ^ 64 + 2))) (scalar 2) =
      some 4 := by decide

/-- Section 2.4.6: the same register as S64 and as U64. -/
theorem test_maModulo_signed_and_unsigned :
    seen (exec (.maModulo .w32 .w64 .signed 1 0 2) (withS (withS small 0 (2 ^ 63)) 2 1000))
      (scalar 1) = some 192 ∧
    seen (exec (.maModulo .w32 .w64 .unsigned 1 0 2) (withS (withS small 0 (2 ^ 63)) 2 1000))
      (scalar 1) = some 808 := by decide

/-- Section 2.4.6, last row: only bits 7 to 0 of the dividend are read. -/
theorem test_maModulo_reads_the_low_bits :
    seen (exec (.maModulo .w8 .w8 .signed 1 0 2)
      (withS (withS small 0 (2 ^ 128 - 1 - 0x80)) 2 128)) (scalar 1) = some 127 := by decide

/-- Section 2.5: the three commands with a zero modulus, also when the exponent is 0. -/
theorem test_zero_modulus_stops :
    stopsOnZeroModulus (exec (.maMulmod .w8 4 0 1 3) (withS small 3 0x100)) = true ∧
    stopsOnZeroModulus (exec (.maPowmod .w8 4 0 3 3) (withS small 3 0x100)) = true ∧
    stopsOnZeroModulus (exec (.maModulo .w8 .w8 .unsigned 4 0 3) (withS small 3 0x100)) = true := by
  decide

/-! ## The window and the port -/

/-- What one host transaction answers and leaves in STATUS.ILL and FCMD. -/
def transact (s : State) (event : HostEvent) : Option (List Response × Bool × Word) :=
  seen (step (withEvents s [event])) port

/-- The state of section 2.5 with a recorded fault. -/
def faulted : State := { blank .w8 with ill := true, fcmd := 0x18004231 }

/-- ID in hardware of each dimension (section 2.2). -/
theorem test_id :
    [Width.w8, .w16, .w32, .w64, .w128].map
      (fun w => (blank w).hostRead (.bits 32) 0x0000) =
      [.okayData 0x01101008, .okayData 0x01101010, .okayData 0x01101020, .okayData 0x01101040,
       .okayData 0x01101080] := by decide

/-- Section 2.2, the writes of `SR[3]`: word 1 of the register alone. -/
theorem test_scalar_window :
    seen (step (withEvents (withS (blank .w32) 3 0x80000000FFFFFFFF0123456789ABCDEF)
      [hw 0x0134 0])) (scalar 3) = some 0x80000000FFFFFFFF0000000089ABCDEF ∧
    (withS (blank .w32) 3 0x80000000FFFFFFFF0123456789ABCDEF).hostRead (.bits 32) 0x0134 =
      .okayData 0x01234567 := by decide

/-- Section 2.2: only the low 8 bits of a write to an 8-bit column are kept. -/
theorem test_staging_window_8 :
    seen (step (withEvents (blank .w8) [hw 0x0870 0x1FF])) (fun t => t.colbufSlot 7) =
      some 0xFF ∧
    seen (step (withEvents (blank .w8) [hw 0x0874 5])) (fun t => (t.outbox, t.colbufSlot 7)) =
      some ([.okay], 0) := by decide

/-- Section 2.2: word 1 of a 64-bit column, and word 2 that lies above it. -/
theorem test_staging_window_64 :
    seen (step (withEvents (blank .w64) [hw 0x0804 0x22222222])) (fun t => t.colbufSlot 0) =
      some 0x2222222200000000 ∧
    seen (step (withEvents (blank .w64) [hw 0x0808 0x33333333]))
      (fun t => (t.outbox, t.colbufSlot 0)) = some ([.okay], 0) := by decide

/-- Section 2.2: `MR[15].col[31]` after BM.IDENT, at word 0 and word 1. -/
theorem test_matrix_window :
    let s := (blank .w32).setMR 15 (BitMatrix.identity 32)
    s.hostRead (.bits 32) 0xF9F0 = .okayData 0x80000000 ∧
      s.hostRead (.bits 32) 0xF9F4 = .okayData 0 := by decide

/-- The ERROR lines of section 2.2 that are reads. -/
theorem test_reads_that_are_errors :
    [0x0A00, 0x0102, 0x0008, 0x0010, 0x00FC, 0x0200, 0x07FC, 0x1000, 0x7FFC, 0x8200, 0xFFFC,
     0xFA00].all (fun a => (blank .w32).hostRead (.bits 32) a = .error) = true ∧
    (blank .w32).hostRead (.bits 16) 0x0100 = .error ∧
    (blank .w32).hostRead (.bits 64) 0x0100 = .error ∧
    (blank .w32).hostRead .burst 0x0100 = .error := by decide

/-- The ERROR lines of section 2.2 that are writes; none records a fault. -/
theorem test_writes_that_are_errors :
    ([hw 0x0A00 0, hw 0x8000 1, hw 0x0000 0, hw 0x000C 0, .write (.bits 8) 0x0100 3].map
      (transact (blank .w32))).all (· = some ([.error], false, 0)) = true := by decide

/-- At `W = 128` the last address of the window is a column's. -/
theorem test_window_128 : (blank .w128).hostRead (.bits 32) 0xFFFC = .okayData 0 := by decide

/-- Section 2.5, first two rows. -/
theorem test_illegal_command_is_recorded :
    transact (blank .w8) (hw 0x0008 0x00000000) = some ([.error], true, 0) ∧
    transact faulted (hw 0x0008 0x34000000) = some ([.error], true, 0x34000000) := by decide

/-- Section 2.5 and program P2, step 22: the host reads the illegal word back at 0x000C. -/
theorem test_fcmd_reads_the_illegal_word :
    seen (step (withEvents (blank .w8) [hw 0x0008 0x18004231]))
      (fun t => t.hostRead (.bits 32) 0x000C) = some (.okayData 0x18004231) := by decide

/-- Section 2.5: a command executes although ILL is set, and changes neither ILL nor FCMD. -/
theorem test_command_executes_under_ill :
    transact faulted (hw 0x0008 0x30005000) = some ([.okay], true, 0x18004231) ∧
    seen (step (withEvents faulted [hw 0x0008 0x30005000])) (scalar 5) = some 1 := by decide

/-- Section 2.5: STATUS is cleared by a write with bit 0 set, and by no other. -/
theorem test_status_write_one_to_clear :
    transact faulted (hw 0x0004 0x00000001) = some ([.okay], false, 0x18004231) ∧
    transact faulted (hw 0x0004 0x00000000) = some ([.okay], true, 0x18004231) ∧
    transact faulted (hw 0x0004 0xFFFFFFFE) = some ([.okay], true, 0x18004231) ∧
    faulted.hostRead (.bits 32) 0x0004 = .okayData 1 ∧
    faulted.hostRead (.bits 32) 0x000C = .okayData 0x18004231 := by decide

/-- R33 and R230: what reset leaves in STATUS and FCMD, and no response. -/
theorem test_reset :
    transact faulted (.reset none) = some ([], false, 0) ∧
    transact faulted (.reset (some 0x30005000)) = some ([], false, 0) := by
  exact ⟨rfl, rfl⟩

/-- R214: with nothing to come the core holds its state. -/
theorem test_idle_holds : seen (step small) (fun t => decide (t = small)) = some true := by decide

/-- A command word placed where the next step takes it from is executed by it. -/
theorem test_withFetchWord :
    seen (step (State.reset.withFetchWord 32 0x0C00F000)) (fun t => (t.outbox, columns 15 t)) =
      some ([.okay], (List.range 32).map (2 ^ ·)) := by decide

/-- The directives of R92 for program P2, step 2. -/
theorem test_directives :
    setcol .w8 5 0x68 = [.write (.bits 32) 0x0850 0x68] ∧
    (setcol .w64 63 1).map (fun e => match e with
      | .write _ a _ => a.toNat
      | .read _ a => a.toNat
      | .reset _ => 0) = [0x0BF0, 0x0BF4] ∧
    cmd (.bmNew 6) = .write (.bits 32) 0x0008 0x04006000 ∧ hr 0x8050 = .read (.bits 32) 0x8050 := by
  decide

/-! ## Witnesses: for each statement with hypotheses, a state and operands that meet them

Where a statement has several clauses, one for each, at the ends of its ranges. -/

/-- EncodeOfDecodeIsTheWord. -/
theorem witness_EncodeOfDecodeIsTheWord : decode 0x41003012 = .ok (.maMulmod .w32 3 0 1 2) := by
  decide

/-- DecodingIsTheMatchAndMaskTable, from either side. -/
theorem witness_DecodingIsTheMatchAndMaskTable :
    (decode 0x5248FFF0 = .ok (.maModulo .w128 .w128 .signed 15 15 15)) ∧
      ∃ row ∈ commandTable, row.opcode = .maModulo ∧ row.admits 0x5248FFF0 = true := by
  decide

/-- IllegalWordsAreThoseOfTheFourConditions: a word that breaks one condition alone, for each of the
four. -/
theorem witness_IllegalWordsAreThoseOfTheFourConditions :
    (Fields.ofWord 0x34000000).opKnown = false ∧ (Fields.ofWord 0x18004231).unusedZero = false ∧
      (Fields.ofWord 0x42800000).szDefined = false ∧
      (Fields.ofWord 0x50500000).aszDefined = false ∧
      decode 0x18004231 = .error .mustBeZero := by
  decide

/-- StepExecutesTheCommandWrittenToCmd: the clause of a next state and that of a fault. -/
theorem witness_StepExecutesTheCommandWrittenToCmd :
    decode 0x30005000 = .ok (.bmEq 5 0 0) ∧ (seen (exec (.bmEq 5 0 0) small) (scalar 5)).isSome ∧
      decode 0x40004013 = .ok (.maMulmod .w8 4 0 1 3) ∧
      stopsOnZeroModulus (exec (.maMulmod .w8 4 0 1 3) small) = true := by
  decide

/-- IllegalCommandIsRecordedAndChangesNothingElse. -/
theorem witness_IllegalCommandIsRecordedAndChangesNothingElse :
    (withEvents faulted [.write (.bits 32) 0x0008 0xFFFFFFFF]).inbox =
      [.write (.bits 32) 0x0008 0xFFFFFFFF] ∧ ∃ why, decode 0xFFFFFFFF = .error why :=
  ⟨rfl, _, rfl⟩

/-- ErrorIsGivenExactlyToTheListedAccesses: each ground of an error read, at the ends of the unmapped
ranges, at `W = 32`. -/
theorem witness_error_reads :
    accessErrorEvent 32 (.read (.bits 16) 0x0100) ∧ accessErrorEvent 32 (.read .burst 0x0100) ∧
    accessErrorEvent 32 (.read (.bits 32) 0x0102) ∧ accessErrorEvent 32 (.read (.bits 32) 0x0010) ∧
    accessErrorEvent 32 (.read (.bits 32) 0x00FC) ∧ accessErrorEvent 32 (.read (.bits 32) 0x0200) ∧
    accessErrorEvent 32 (.read (.bits 32) 0x07FC) ∧ accessErrorEvent 32 (.read (.bits 32) 0x0A00) ∧
    accessErrorEvent 32 (.read (.bits 32) 0x0FFC) ∧ accessErrorEvent 32 (.read (.bits 32) 0x1000) ∧
    accessErrorEvent 32 (.read (.bits 32) 0x7FFC) ∧ accessErrorEvent 32 (.read (.bits 32) 0x8200) ∧
    accessErrorEvent 32 (.read (.bits 32) 0xFFFC) ∧ accessErrorEvent 32 (.read (.bits 32) 0x0008) := by
  simp [accessErrorEvent, unmappedAddr]

/-- The same of writes, with the read-only registers. -/
theorem witness_error_writes :
    accessErrorEvent 8 (.write (.bits 8) 0x0100 3) ∧ accessErrorEvent 8 (.write (.bits 32) 0x0102 3) ∧
    accessErrorEvent 8 (.write (.bits 32) 0x0880 3) ∧ accessErrorEvent 8 (.write (.bits 32) 0x0000 3) ∧
    accessErrorEvent 8 (.write (.bits 32) 0x000C 3) ∧ accessErrorEvent 8 (.write (.bits 32) 0x8000 3) ∧
    accessErrorEvent 8 (.write (.bits 32) 0xFFFC 3) := by
  simp [accessErrorEvent, unmappedAddr]

/-- The reads that are answered, at the ends of the mapped ranges: the control registers, the first
and last word of each block, at `W = 32` and at `W = 128`. -/
theorem witness_answered_reads :
    ¬ accessErrorEvent 32 (.read (.bits 32) 0x0000) ∧ ¬ accessErrorEvent 32 (.read (.bits 32) 0x000C) ∧
    ¬ accessErrorEvent 32 (.read (.bits 32) 0x0100) ∧ ¬ accessErrorEvent 32 (.read (.bits 32) 0x01FC) ∧
    ¬ accessErrorEvent 32 (.read (.bits 32) 0x0800) ∧ ¬ accessErrorEvent 32 (.read (.bits 32) 0x09FC) ∧
    ¬ accessErrorEvent 32 (.read (.bits 32) 0x8000) ∧ ¬ accessErrorEvent 32 (.read (.bits 32) 0xF9FC) ∧
    ¬ accessErrorEvent 128 (.read (.bits 32) 0x0FFC) ∧
    ¬ accessErrorEvent 128 (.read (.bits 32) 0xFFFC) := by
  simp [accessErrorEvent, unmappedAddr]

/-- The writes that are answered: an ordinary one, a command whose operands are defined (with a
modulus and without), and an illegal command. -/
theorem witness_answered_writes :
    ¬ accessErrorEvent 32 (.write (.bits 32) 0x0004 1) ∧
    ¬ accessErrorEvent 32 (.write (.bits 32) 0x01FC 1) ∧
    ¬ accessErrorEvent 32 (.write (.bits 32) 0x0008 0x41003012) ∧
    (withS small 2 1).operandsDefined (.maMulmod .w32 3 0 1 2) ∧ small.operandsDefined (.bmNew 0) ∧
    ∃ why, decode 0x00000000 = .error why := by
  refine ⟨by simp [accessErrorEvent, unmappedAddr], by simp [accessErrorEvent, unmappedAddr],
    by simp [accessErrorEvent, unmappedAddr], ?_, ?_, _, rfl⟩ <;>
    · unfold State.operandsDefined
      decide

/-- ScalarWindowReadsAndWritesOneWord: the first and the last word of the block. -/
theorem witness_ScalarWindowReadsAndWritesOneWord :
    (0x0100 : WindowAddr).toNat = 0x0100 + 0x10 * (0 : SReg).val + 4 * (0 : Fin 4).val ∧
    (0x01FC : WindowAddr).toNat = 0x0100 + 0x10 * (15 : SReg).val + 4 * (3 : Fin 4).val := by
  decide

/-- StagingWindowReadsAndWritesOneWord: a word that meets the column and the first that does not, at
`W = 8`, 32 and 64; the last word of all at `W = 128`. -/
theorem witness_StagingWindowReadsAndWritesOneWord :
    ((0x0870 : WindowAddr).toNat = 0x0800 + 0x10 * (7 : Fin 8).val + 4 * (0 : Fin 4).val ∧
      32 * (0 : Fin 4).val < (blank .w8).width.bits) ∧
    ((0x0874 : WindowAddr).toNat = 0x0800 + 0x10 * (7 : Fin 8).val + 4 * (1 : Fin 4).val ∧
      (blank .w8).width.bits ≤ 32 * (1 : Fin 4).val) ∧
    ((0x09F4 : WindowAddr).toNat = 0x0800 + 0x10 * (31 : Fin 32).val + 4 * (1 : Fin 4).val ∧
      (blank .w32).width.bits ≤ 32 * (1 : Fin 4).val) ∧
    ((0x0BF4 : WindowAddr).toNat = 0x0800 + 0x10 * (63 : Fin 64).val + 4 * (1 : Fin 4).val ∧
      32 * (1 : Fin 4).val < (blank .w64).width.bits) ∧
    ((0x0FFC : WindowAddr).toNat = 0x0800 + 0x10 * (127 : Fin 128).val + 4 * (3 : Fin 4).val ∧
      32 * (3 : Fin 4).val < (blank .w128).width.bits) := by
  decide

/-- MatrixWindowIsReadOnly: the same of the matrix registers, and the ends of their block. -/
theorem witness_MatrixWindowIsReadOnly :
    ((0x8070 : WindowAddr).toNat = 0x8000 + 0x800 * (0 : MReg).val + 0x10 * (7 : Fin 8).val +
        4 * (0 : Fin 4).val ∧ 32 * (0 : Fin 4).val < (blank .w8).width.bits) ∧
    ((0xF9F4 : WindowAddr).toNat = 0x8000 + 0x800 * (15 : MReg).val + 0x10 * (31 : Fin 32).val +
        4 * (1 : Fin 4).val ∧ (blank .w32).width.bits ≤ 32 * (1 : Fin 4).val) ∧
    ((0xFFFC : WindowAddr).toNat = 0x8000 + 0x800 * (15 : MReg).val + 0x10 * (127 : Fin 128).val +
        4 * (3 : Fin 4).val ∧ 32 * (3 : Fin 4).val < (blank .w128).width.bits) ∧
    0x8000 ≤ (0x8000 : WindowAddr).toNat ∧ 0x8000 ≤ (0xFFFF : WindowAddr).toNat := by
  decide

/-- IdNamesTheHardware: the reference hardware. -/
theorem witness_IdNamesTheHardware : State.reset.width = .w32 := rfl

/-- StatusShowsAndClearsIllAndNoCommandReadsIt. -/
theorem witness_StatusShowsAndClearsIllAndNoCommandReadsIt :
    (0x00000001 : Word).getLsbD 0 = true ∧ (0xFFFFFFFE : Word).getLsbD 0 = false ∧
      (∃ why, decode 0x18004231 = .error why) ∧ ∃ t, exec (.bmIdent 0) faulted = .next t :=
  ⟨rfl, rfl, ⟨_, rfl⟩, _, rfl⟩

/-- OnlyTheListedEventsChangeTheFaultRecord: ILL set, cleared by a write, cleared by a reset; FCMD
changed by an illegal command and by a reset. -/
theorem witness_OnlyTheListedEventsChangeTheFaultRecord :
    (∃ t, step (withEvents (blank .w8) [hw 0x0008 0x34000000]) = .next t ∧
      t.ill = true ∧ t.fcmd ≠ (blank .w8).fcmd) ∧
    (∃ t, step (withEvents faulted [hw 0x0004 1]) = .next t ∧ t.ill = false) ∧
    (∃ t, step (withEvents faulted [.reset none]) = .next t ∧ t.ill = false ∧
      t.fcmd ≠ faulted.fcmd) := by
  refine ⟨⟨_, rfl, ?_, ?_⟩, ⟨_, rfl, ?_⟩, _, rfl, ?_, ?_⟩ <;> decide

/-- ReadsHaveNoSideEffect: a read that is answered, and one that is not. -/
theorem witness_ReadsHaveNoSideEffect :
    (withEvents faulted [hr 0x0004]).inbox = [.read (.bits 32) 0x0004] ∧
      (withEvents faulted [.read .burst 0x0003]).inbox = [.read .burst 0x0003] := ⟨rfl, rfl⟩

/-- ResetLeavesStatusAndFcmdZero: a reset between transactions, and one that cuts a command off. -/
theorem witness_ResetLeavesStatusAndFcmdZero :
    (withEvents faulted [.reset none]).inbox = [.reset none] ∧
      (withEvents faulted [.reset (some 0x30005000)]).inbox = [.reset (some 0x30005000)] :=
  ⟨rfl, rfl⟩

/-- EveryStepKeepsFcmdNoCommand, with a step that changes FCMD. -/
theorem witness_EveryStepKeepsFcmdNoCommand :
    (withEvents faulted [hw 0x0008 0x34000000]).fcmdIsIllegal ∧
      ∃ t, step (withEvents faulted [hw 0x0008 0x34000000]) = .next t ∧ t.fcmd = 0x34000000 :=
  ⟨⟨_, rfl⟩, _, rfl, rfl⟩

/-- NoStepChangesTheDimension and EachTransactionGetsOneResponseInOrder: a transaction, and a
reset. -/
theorem witness_steps_of_each_kind :
    (∃ t, step (withEvents small [hr 0x0000, hr 0x0004]) = .next t ∧
      isTransaction (hr 0x0000) = true) ∧
    (∃ t, step (withEvents small [.reset none, hr 0x0004]) = .next t ∧
      isTransaction (.reset none) = false) :=
  ⟨⟨_, rfl, rfl⟩, _, rfl, rfl⟩

/-- EveryRunCompletes: a run that issues no command with a modulus. -/
theorem witness_EveryRunCompletes :
    ∀ event ∈ (withEvents small [hr 0x0000, .reset none, hw 0x0100 7]).inbox,
      ¬ issuesModulusCommand event := by
  intro event h
  simp only [withEvents, List.mem_cons, List.not_mem_nil, or_false] at h
  rcases h with rfl | rfl | rfl
  · exact id
  · exact id
  · intro h
    exact absurd h.1 (by decide)

/-- EveryRunCompletes: the run that stops. -/
theorem witness_EveryRunCompletes_stop :
    stopsOnZeroModulus (core.run 1 (withEvents small [hw 0x0008 0x40004013])) = true := by decide

/-- CommandsCompleteExactlyWithoutAZeroModulus: both sides. -/
theorem witness_CommandsCompleteExactlyWithoutAZeroModulus :
    (withS small 3 1).operandsDefined (.maMulmod .w8 4 0 1 3) ∧
      ¬ (withS small 3 0x100).operandsDefined (.maMulmod .w8 4 0 1 3) := by
  unfold State.operandsDefined
  decide

/-- ACommandWritesItsDestinationAndNothingElse: a scalar and a matrix destination, another register of
the same number, and the addresses next to each destination's block. -/
theorem witness_ACommandWritesItsDestinationAndNothingElse :
    (∃ t, exec (.bmEq 5 4 4) small = .next t) ∧ (∃ t, exec (.bmIdent 0) small = .next t) ∧
    destinationOf (.bmEq 5 4 4) = .scalar 5 ∧ destinationOf (.bmEq 5 4 4) ≠ .matrix 5 ∧
    ¬ inBlockOf 0x014C (destinationOf (.bmEq 5 4 4)) ∧
    ¬ inBlockOf 0x0160 (destinationOf (.bmEq 5 4 4)) ∧
    ¬ inBlockOf 0x7FFC (destinationOf (.bmIdent 0)) ∧
    ¬ inBlockOf 0x8800 (destinationOf (.bmIdent 0)) ∧
    ∃ why, decode 0x18004231 = .error why := by
  refine ⟨⟨_, rfl⟩, ⟨_, rfl⟩, rfl, nofun, ?_, ?_, ?_, ?_, _, rfl⟩ <;>
    · simp only [destinationOf, inBlockOf]
      decide

/-- CommandsDependOnTheirSourcesAlone: two states that differ in STATUS, in FCMD and in the old value
of the destination. -/
theorem witness_CommandsDependOnTheirSourcesAlone :
    agreeOnSources (.bmAnd 0 4 1) small { withM small 0 colsX with ill := true, fcmd := 7 } ∧
      ∃ t, exec (.bmAnd 0 4 1) small = .next t :=
  ⟨⟨rfl, fun _ _ => rfl,
    fun r h k => by
      have e : r = 4 := by simpa [sourcesOf] using h
      rw [e]
      rfl,
    nofun⟩, _, rfl⟩

/-- SetsLoadsAScalarRegister. -/
theorem witness_SetsLoadsAScalarRegister :
    (withEvents small (sets 15 (2 ^ 127 + 5))).inbox = sets 15 (2 ^ 127 + 5) := rfl

/-- BmEqComparesAllColumns: two registers that are equal, and two that differ. -/
theorem witness_BmEqComparesAllColumns :
    (∀ i < small.width.bits, (small.getMR 0).col i = (small.getMR 1).col i) ∧
      ∃ i < small.width.bits, (small.getMR 2).col i ≠ (small.getMR 3).col i := by
  decide

/-- MaMulmodMultipliesExactlyAndReduces: a modulus whose low 8 bits are not 0, and one whose low 8
bits are. -/
theorem witness_MaMulmodMultipliesExactlyAndReduces :
    ((withS small 2 0x10D).getSR 2).toNat % 2 ^ Width.w8.bits ≠ 0 ∧
      ((withS small 2 0x100).getSR 2).toNat % 2 ^ Width.w8.bits = 0 := by
  decide

/-- MaPowmodRaisesAndReduces: a modulus of 1 with the exponents 1 and 0, and a zero modulus. -/
theorem witness_MaPowmodRaisesAndReduces :
    (((withS (withS small 2 1) 1 1).getSR 2).toNat % 2 ^ Width.w128.bits ≠ 0 ∧
      ((withS (withS small 2 1) 1 1).getSR 1).toNat ≠ 0) ∧
    (((withS small 2 1).getSR 2).toNat % 2 ^ Width.w128.bits ≠ 0 ∧
      ((withS small 2 1).getSR 1).toNat = 0) ∧
    ((withS small 2 0x100).getSR 2).toNat % 2 ^ Width.w8.bits = 0 := by
  decide

/-- MaModuloGivesTheCanonicalRemainder: a modulus with the most negative dividend and with the
greatest positive one, and a zero modulus. -/
theorem witness_MaModuloGivesTheCanonicalRemainder :
    ((withS small 2 1000).getSR 2).toNat % 2 ^ Width.w32.bits ≠ 0 ∧
      2 ^ (Width.w64.bits - 1) ≤ ((withS small 0 (2 ^ 63)).getSR 0).toNat % 2 ^ Width.w64.bits ∧
      ¬ 2 ^ (Width.w64.bits - 1) ≤
        ((withS small 0 (2 ^ 63 - 1)).getSR 0).toNat % 2 ^ Width.w64.bits ∧
      ((withS small 2 0x100).getSR 2).toNat % 2 ^ Width.w8.bits = 0 := by
  decide

/-- PowBySquaringIsNFoldComposition: the least and the greatest exponent of the hardware. -/
theorem witness_PowBySquaringIsNFoldComposition :
    bitLength 0 ≤ 0 ∧ bitLength (2 ^ 128 - 1) ≤ 128 := by decide

/-- ShiftAgreesWithNativeShifts: amounts on either side of 0. -/
theorem witness_ShiftAgreesWithNativeShifts : (0 : Int) ≤ 0 ∧ (-1 : Int) < 0 := by decide

/-- MulModAlgorithmsComputeTheSameFunction: the least modulus, and values just below the greatest. -/
theorem witness_MulModAlgorithmsComputeTheSameFunction :
    (0 : Nat) < 1 ∧ (254 < 255 ∧ 254 < 255) ∧ 0 < (BitVec.ofNat 8 255).toNat := by decide

/-- PowModIsRepeatedMulMod, ModuloIsBelowTheModulus and ModuloByMagnitudeIsTheCanonicalRemainder: the
least modulus, and a dividend that is not negative. -/
theorem witness_least_modulus : (0 : Nat) < 1 ∧ (0 : Int) ≤ 0 := by decide

/-- GeomSeriesIsTheNaiveLoop and WrappingPowIsPowModAtTheNaturalModulus: the greatest operand at the
narrowest width. -/
theorem witness_greatest_operand : 0 < 8 ∧ 255 < 2 ^ 8 := by decide

/-- JumpAheadIsNSingleUpdates: operands at the ends of both ranges, and a start that is not reduced. -/
theorem witness_JumpAheadIsNSingleUpdates :
    (0 < 8 ∧ 255 < 2 ^ 8 ∧ 0 < 2 ^ 8) ∧ ((0 : Nat) < 1 ∧ (0 < 1 ∨ 0 < 0)) ∧
      ((0 : Nat) < 7 ∧ (7 < 7 ∨ 0 < 1)) := by decide

/-- RequiredInvariantsHoldOfMatricesAndOfCommands: a destination that is no operand still to be read,
also with `mb` as the destination; and a register that holds the XOR of two others, also of one and
itself. -/
theorem witness_RequiredInvariantsHoldOfMatricesAndOfCommands :
    ((0 : MReg) ≠ 1 ∧ (0 : MReg) ≠ 15) ∧
    (withS (withS (withS small 0 0x1A5) 1 0xFF) 2 0x15A).getSR 2 =
      (withS (withS (withS small 0 0x1A5) 1 0xFF) 2 0x15A).getSR 0 ^^^
        (withS (withS (withS small 0 0x1A5) 1 0xFF) 2 0x15A).getSR 1 ∧
    (withS small 0 5).getSR 1 = (withS small 0 5).getSR 0 ^^^ (withS small 0 5).getSR 0 := by
  decide

end Sys2Proof.Tests
end

section
/-! The required invariants of R12: `compose` is associative and `apply` is linear (R120 to R122), of
the matrix functions and, through the registers, of BM.COMPOSE and BM.APPLY. -/

namespace Sys2Proof.Machine.BitMatrix

variable {W : Nat}

/-- A column that both vectors select cancels out of the XOR of their images (R121). -/
theorem xor_xor_xor_same (x y c : BitVec W) : (x ^^^ c) ^^^ (y ^^^ c) = x ^^^ y := by
  rw [BitVec.xor_comm y c, BitVec.xor_assoc, ← BitVec.xor_assoc c c y, BitVec.xor_self,
    BitVec.zero_xor]

/-- The loop of R113 is linear after every number of rounds. -/
theorem applyBelow_xor (M : BitMatrix W) (v w : BitVec W) (n : Nat) :
    M.applyBelow (v ^^^ w) n = M.applyBelow v n ^^^ M.applyBelow w n := by
  induction n with
  | zero => simp [applyBelow]
  | succ n ih =>
    simp only [applyBelow, BitVec.getLsbD_xor, ih]
    cases v.getLsbD n with
    | false =>
      cases w.getLsbD n with
      | false => simp
      | true => simp [BitVec.xor_assoc]
    | true =>
      cases w.getLsbD n with
      | false => simp; ac_rfl
      | true => simp [xor_xor_xor_same]

theorem apply_xor (M : BitMatrix W) (v w : BitVec W) :
    M.apply (v ^^^ w) = M.apply v ^^^ M.apply w :=
  M.applyBelow_xor v w W

@[simp] theorem apply_zero (M : BitMatrix W) : M.apply 0#W = 0#W := by
  simpa using M.apply_xor 0#W 0#W

/-- The loop of a composition is the outer matrix applied to the loop of the inner one: linearity
carries each XOR of a column through. -/
theorem applyBelow_compose (A B : BitMatrix W) (v : BitVec W) {n : Nat} (hn : n ≤ W) :
    (A.compose B).applyBelow v n = A.apply (B.applyBelow v n) := by
  induction n with
  | zero => simp [applyBelow]
  | succ n ih =>
    have hloop := ih (by omega)
    have hcol := col_compose A B (i := n) (by omega)
    cases hbit : v.getLsbD n with
    | false => simp [applyBelow, hbit, hloop]
    | true => simp [applyBelow, hbit, hloop, hcol, apply_xor]

theorem apply_compose (A B : BitMatrix W) (v : BitVec W) :
    (A.compose B).apply v = A.apply (B.apply v) :=
  applyBelow_compose A B v le_rfl

theorem compose_assoc (A B C : BitMatrix W) :
    (A.compose B).compose C = A.compose (B.compose C) := by
  apply ext_col
  intro i hi
  simp [col_compose _ _ hi, apply_compose]

end Sys2Proof.Machine.BitMatrix

namespace Sys2Proof.Machine

/-- The required invariants of R12 hold at every dimension. -/
theorem requiredInvariants_holds (W : Nat) : requiredInvariants W :=
  ⟨BitMatrix.compose_assoc, BitMatrix.apply_xor⟩

theorem State.getMR_setMR_same (s : State) (r : MReg) (M : BitMatrix s.width.bits) :
    (s.setMR r M).getMR r = M := by
  rw [State.getMR_setMR, if_pos rfl]

theorem State.getMR_setMR_of_ne (s : State) {r q : MReg} (h : r ≠ q)
    (M : BitMatrix s.width.bits) : (s.setMR r M).getMR q = s.getMR q := by
  rw [State.getMR_setMR, if_neg h]

/-- The second write of a matrix register replaces the first. -/
theorem State.setMR_setMR (s : State) (r : MReg) (M N : BitMatrix s.width.bits) :
    (s.setMR r M).setMR r N = s.setMR r N := by
  change ({ s with mr := (s.mr.set r.val M).set r.val N } : State) =
    { s with mr := s.mr.set r.val N }
  rw [Vector.set_set]

theorem vectorResult_xor {W : Nat} (x y : BitVec W) :
    vectorResult (x ^^^ y) = vectorResult x ^^^ vectorResult y :=
  BitVec.setWidth_xor

/-- A result of the bit-matrix unit, read back as an operand of it, is the same vector: `W` is at
most 128 (R85). -/
theorem State.vectorOperand_setSR_vectorResult (s : State) (r : SReg)
    (v : BitVec s.width.bits) : (s.setSR r (vectorResult v)).vectorOperand r = v := by
  change ((s.setSR r (vectorResult v)).getSR r).setWidth s.width.bits = v
  rw [State.getSR_setSR, if_pos rfl]
  rw [vectorResult, BitVec.setWidth_setWidth_of_le _ s.width.bits_le, BitVec.setWidth_eq]

theorem exec_bmCompose (md ma mb : MReg) (s : State) :
    exec (.bmCompose md ma mb) s = .next (s.setMR md ((s.getMR ma).compose (s.getMR mb))) := rfl

theorem exec_bmApply (sd : SReg) (ma : MReg) (sv : SReg) (s : State) :
    exec (.bmApply sd ma sv) s =
      .next (s.setSR sd (vectorResult ((s.getMR ma).apply (s.vectorOperand sv)))) := rfl

/-- BM.COMPOSE onto its own left operand, just written. -/
theorem exec_bmCompose_left_setMR (s : State) {md mc : MReg} (h : md ≠ mc)
    (M : BitMatrix s.width.bits) :
    exec (.bmCompose md md mc) (s.setMR md M) = .next (s.setMR md (M.compose (s.getMR mc))) := by
  rw [exec_bmCompose, s.getMR_setMR_same, s.getMR_setMR_of_ne h]
  exact congrArg Host.Outcome.next (s.setMR_setMR ..)

/-- BM.COMPOSE onto its own right operand, just written. -/
theorem exec_bmCompose_right_setMR (s : State) {md ma : MReg} (h : md ≠ ma)
    (M : BitMatrix s.width.bits) :
    exec (.bmCompose md ma md) (s.setMR md M) = .next (s.setMR md ((s.getMR ma).compose M)) := by
  rw [exec_bmCompose, s.getMR_setMR_same, s.getMR_setMR_of_ne h]
  exact congrArg Host.Outcome.next (s.setMR_setMR ..)

/-- BM.APPLY of a matrix register just written. -/
theorem exec_bmApply_setMR (s : State) (md : MReg) (M : BitMatrix s.width.bits) (sd sv : SReg) :
    exec (.bmApply sd md sv) (s.setMR md M) =
      .next ((s.setMR md M).setSR sd (vectorResult (M.apply (s.vectorOperand sv)))) := by
  rw [exec_bmApply, s.getMR_setMR_same]
  rfl

/-- BM.APPLY to a vector that the scalar register just received as a result. -/
theorem exec_bmApply_setSR (s : State) (sd : SReg) (v : BitVec s.width.bits) (ma : MReg) :
    exec (.bmApply sd ma sd) (s.setSR sd (vectorResult v)) =
      .next ((s.setSR sd (vectorResult v)).setSR sd (vectorResult ((s.getMR ma).apply v))) := by
  rw [exec_bmApply, s.vectorOperand_setSR_vectorResult]
  rfl

/-- R120 through the registers: the two ways to compose three matrix registers leave one state. -/
theorem exec_bmCompose_assoc (s : State) {md ma mc : MReg} (mb : MReg) (ha : md ≠ ma)
    (hc : md ≠ mc) :
    ∃ t t' u, exec (.bmCompose md ma mb) s = .next t ∧ exec (.bmCompose md md mc) t = .next u ∧
      exec (.bmCompose md mb mc) s = .next t' ∧ exec (.bmCompose md ma md) t' = .next u := by
  refine ⟨_, _, _, exec_bmCompose md ma mb s, exec_bmCompose_left_setMR s hc _,
    exec_bmCompose md mb mc s, ?_⟩
  rw [exec_bmCompose_right_setMR s ha, BitMatrix.compose_assoc]

/-- R121 through the registers: BM.APPLY of an XOR writes the XOR of the two results. -/
theorem exec_bmApply_linear (s : State) (sd : SReg) {sv sw sx : SReg} (ma : MReg)
    (h : s.getSR sx = s.getSR sv ^^^ s.getSR sw) :
    ∃ x y, exec (.bmApply sd ma sv) s = .next (s.setSR sd x) ∧
      exec (.bmApply sd ma sw) s = .next (s.setSR sd y) ∧
      exec (.bmApply sd ma sx) s = .next (s.setSR sd (x ^^^ y)) := by
  have hx : s.vectorOperand sx = s.vectorOperand sv ^^^ s.vectorOperand sw := by
    simp [State.vectorOperand, h, BitVec.setWidth_xor]
  refine ⟨_, _, exec_bmApply sd ma sv s, exec_bmApply sd ma sw s, ?_⟩
  rw [exec_bmApply, hx, BitMatrix.apply_xor, vectorResult_xor]

/-- R120 through the registers: BM.APPLY of a composition writes what applying the right factor and
then the left one writes. -/
theorem exec_bmApply_of_compose (s : State) (md ma mb : MReg) (sd sv : SReg) :
    ∃ t t' x, exec (.bmCompose md ma mb) s = .next t ∧
      exec (.bmApply sd md sv) t = .next (t.setSR sd x) ∧
      exec (.bmApply sd mb sv) s = .next t' ∧
      exec (.bmApply sd ma sd) t' = .next (t'.setSR sd x) := by
  refine ⟨_, _, _, exec_bmCompose md ma mb s, exec_bmApply_setMR s md _ sd sv,
    exec_bmApply sd mb sv s, ?_⟩
  rw [exec_bmApply_setSR, BitMatrix.apply_compose]

/-- Settles O59: associativity and linearity, of all matrices and of what BM.COMPOSE and BM.APPLY
leave in the registers. -/
theorem requiredInvariantsHoldOfMatricesAndOfCommands :
    Obligations.RequiredInvariantsHoldOfMatricesAndOfCommands :=
  ⟨requiredInvariants_holds,
    fun s _ _ mb _ ha hc => exec_bmCompose_assoc s mb ha hc,
    fun s sd _ _ _ ma h => exec_bmApply_linear s sd ma h,
    exec_bmApply_of_compose⟩

end Sys2Proof.Machine
end

section
/-! What the host sees of the three control registers ID, STATUS and FCMD, what a write of them or of
CMD does, and what reset leaves in them (R27 to R30, R33, R230). -/

namespace Sys2Proof.Machine

theorem State.hostRead_id (s : State) :
    s.hostRead (.bits 32) 0x0000 = .okayData s.idWord := rfl

theorem State.hostRead_status (s : State) :
    s.hostRead (.bits 32) 0x0004 = .okayData s.statusWord := rfl

theorem State.hostRead_fcmd (s : State) :
    s.hostRead (.bits 32) 0x000C = .okayData s.fcmd := rfl

/-- ID is a function of the dimension alone. -/
theorem State.idWord_of_width_eq {s t : State} (h : t.width = s.width) : t.idWord = s.idWord := by
  rw [State.idWord, State.idWord, h]

/-- The bytes of ID as one number (R27). -/
theorem State.idWord_eq_ofNat (s : State) :
    s.idWord = BitVec.ofNat 32 (s.width.bits + 0x100 * 0x10 + 0x10000 * 0x10 + 0x1000000 * 0x01) := by
  unfold State.idWord
  cases s.width <;> rfl

/-- ID of the reference hardware. -/
theorem State.idWord_of_w32 {s : State} (h : s.width = .w32) : s.idWord = 0x01101020 := by
  rw [s.idWord_eq_ofNat, h]
  rfl

theorem State.statusWord_of_ill_eq_false {s : State} (h : s.ill = false) : s.statusWord = 0 := by
  simp [State.statusWord, h]

/-- A write of ID, of any size (R27). -/
theorem State.hostWrite_id (s : State) (size : AccessSize) (v : Word) :
    s.hostWrite size 0x0000 v = .next (s.respond .error) := by
  unfold State.hostWrite
  split
  · rfl
  · rfl

theorem State.hostWrite_status (s : State) (v : Word) :
    s.hostWrite (.bits 32) 0x0004 v = .next ((s.acknowledge v).respond .okay) := rfl

theorem State.acknowledge_of_bit_set (s : State) {v : Word} (h : v.getLsbD 0 = true) :
    s.acknowledge v = { s with ill := false } := by
  simp [State.acknowledge, h]

theorem State.acknowledge_of_bit_clear (s : State) {v : Word} (h : v.getLsbD 0 = false) :
    s.acknowledge v = s := by
  rw [State.acknowledge, h, Bool.not_false, Bool.and_true]

/-- A legal word written to CMD is executed (R29). -/
theorem State.issue_of_ok (s : State) {cw : Word} {i : Instr} (h : decode cw = .ok i) :
    s.issue cw = okayAfter (exec i s) := by
  unfold State.issue
  rw [h]

/-- An illegal word written to CMD is recorded (R201). -/
theorem State.issue_of_error (s : State) {cw : Word} {why : IllegalReason}
    (h : decode cw = .error why) : s.issue cw = .next ((s.raiseIllegal cw).respond .error) := by
  unfold State.issue
  rw [h]

/-- A step that serves a write of a legal word to CMD. -/
theorem step_of_command {s : State} {rest : List HostEvent} {cw : Word} {i : Instr}
    (hin : s.inbox = .write (.bits 32) 0x0008 cw :: rest) (hd : decode cw = .ok i) :
    step s = okayAfter (exec i { s with inbox := rest }) :=
  (step_of_inbox hin).trans (State.issue_of_ok _ hd)

/-- A step that serves a reset. -/
theorem step_of_reset {s : State} {rest : List HostEvent} {cut : Option Word}
    (hin : s.inbox = .reset cut :: rest) :
    step s = .next ({ s with inbox := rest } : State).applyReset :=
  step_of_inbox hin

/-- The word 0 is no command (R86). -/
theorem decode_zero : decode 0 = .error .unknownOp := rfl

theorem step_width {s t : State} (h : step s = .next t) : t.width = s.width := by
  rcases step_cases h with ⟨-, rfl⟩ | ⟨cut, rest, -, rfl⟩ | ⟨event, rest, u, r, -, he, -, rfl⟩
  · rfl
  · rfl
  · exact he.keeps.1

/-- Settles O19, by what a step can do: no effect of a transaction and no reset touches the
dimension, and ID is a function of it. -/
theorem noStepChangesTheDimension : Obligations.NoStepChangesTheDimension := by
  intro s t h
  have hw := step_width h
  exact ⟨hw, by rw [State.hostRead_id, State.hostRead_id, State.idWord_of_width_eq hw]⟩

/-- Settles O6, by the step that serves a write of a legal word to CMD. -/
theorem stepExecutesTheCommandWrittenToCmd : Obligations.StepExecutesTheCommandWrittenToCmd := by
  intro s rest cw i hin hd
  rw [step_of_command hin hd]
  constructor
  · intro t ht
    rw [ht]
    rfl
  · intro f hf
    rw [hf]
    rfl

/-- Settles O12, by the word ID shows and the refusal of every write to it. -/
theorem idNamesTheHardware : Obligations.IdNamesTheHardware := by
  refine ⟨fun s => ?_, fun s hw => ?_, fun s size v => s.hostWrite_id size v⟩
  · rw [s.hostRead_id, s.idWord_eq_ofNat]
  · rw [s.hostRead_id, s.idWord_of_w32 hw]

/-- Settles O16: a reset keeps the dimension, on which alone ID depends, and clears the two words. -/
theorem resetLeavesStatusAndFcmdZero : Obligations.ResetLeavesStatusAndFcmdZero := by
  refine ⟨⟨?_, ?_, rfl⟩, fun s cut rest hin => ⟨_, step_of_reset hin, rfl, rfl, ?_, ?_, rfl⟩⟩
  · rw [State.hostRead_id, State.idWord_of_w32 rfl]
  · rw [State.hostRead_status, State.statusWord_of_ill_eq_false rfl]
  · rw [State.hostRead_id, State.hostRead_id]
    exact congrArg Response.okayData (State.idWord_of_width_eq rfl)
  · rw [State.hostRead_status, State.statusWord_of_ill_eq_false rfl]

/-- Settles O17: FCMD is 0 at State.reset, and 0 is no command. -/
theorem fcmdHoldsNoCommandAtReset : Obligations.FcmdHoldsNoCommandAtReset := ⟨_, decode_zero⟩

end Sys2Proof.Machine
end

section
/-! What a step can do to the fault record, STATUS.ILL and FCMD, said once (R28, R30, R201, R206). -/

namespace Sys2Proof.Machine

/-- The ways in which a step from `s` to `t` treats the fault record, each with the event that does
it. -/
inductive FaultRecordStep (s t : State) : Prop where
  | kept (hill : t.ill = s.ill) (hfcmd : t.fcmd = s.fcmd)
  | acknowledged (v : Word) (rest : List HostEvent)
      (hin : s.inbox = .write (.bits 32) 0x0004 v :: rest)
      (hill : t.ill = (s.ill && !v.getLsbD 0)) (hfcmd : t.fcmd = s.fcmd)
  | recorded (cw : Word) (why : IllegalReason) (rest : List HostEvent)
      (hin : s.inbox = .write (.bits 32) 0x0008 cw :: rest) (hd : decode cw = .error why)
      (hill : t.ill = true) (hfcmd : t.fcmd = cw)
  | reset (cut : Option Word) (rest : List HostEvent) (hin : s.inbox = .reset cut :: rest)
      (hill : t.ill = false) (hfcmd : t.fcmd = 0)

/-- A transaction acknowledges the fault, records an illegal command, or leaves the record alone. -/
theorem Effect.faultRecordStep {s u : State} {event : HostEvent} {rest : List HostEvent}
    (hin : s.inbox = event :: rest) (h : Effect { s with inbox := rest } event u) (r : Response) :
    FaultRecordStep s (u.respond r) := by
  cases h with
  | nothing => exact .kept rfl rfl
  | acknowledged v => exact .acknowledged v rest hin rfl rfl
  | scalarWritten size addr v d x => exact .kept rfl rfl
  | stagedWritten size addr v i x => exact .kept rfl rfl
  | matrixWritten cw d M => exact .kept rfl rfl
  | illegalRecorded cw why hd => exact .recorded cw why rest hin hd rfl rfl

theorem step_faultRecord {s t : State} (h : step s = .next t) : FaultRecordStep s t := by
  rcases step_cases h with ⟨-, rfl⟩ | ⟨cut, rest, hin, rfl⟩ | ⟨event, rest, u, r, hin, he, -, rfl⟩
  · exact .kept rfl rfl
  · exact .reset cut rest hin rfl rfl
  · exact he.faultRecordStep hin r

/-- Settles O18: a step keeps FCMD, records a word that does not decode, or sets FCMD to 0, which does
not decode either. -/
theorem everyStepKeepsFcmdNoCommand : Obligations.EveryStepKeepsFcmdNoCommand := by
  intro s t hs h
  unfold State.fcmdIsIllegal at *
  cases step_faultRecord h with
  | kept _ hfcmd => rwa [hfcmd]
  | acknowledged v rest _ _ hfcmd => rwa [hfcmd]
  | recorded cw why rest _ hd _ hfcmd => exact ⟨why, hfcmd ▸ hd⟩
  | reset cut rest _ _ hfcmd => exact ⟨_, hfcmd ▸ decode_zero⟩

/-- Settles O14, clause by clause over the four ways a step treats the record. -/
theorem onlyTheListedEventsChangeTheFaultRecord :
    Obligations.OnlyTheListedEventsChangeTheFaultRecord := by
  intro s t h
  cases step_faultRecord h with
  | kept hill hfcmd =>
    refine ⟨fun hs ht => ?_, fun hs ht => ?_, fun hne => absurd hfcmd hne⟩
    · simp [hs, ht] at hill
    · simp [hs, ht] at hill
  | acknowledged v rest hin hill hfcmd =>
    refine ⟨fun hs ht => .inl ⟨v, rest, hin, ?_⟩, fun hs ht => ?_, fun hne => absurd hfcmd hne⟩
    · simpa [hs, ht] using hill
    · simp [hs, ht] at hill
  | recorded cw why rest hin hd hill hfcmd =>
    refine ⟨fun _ ht => ?_, fun _ _ => ⟨cw, why, rest, hin, hd, hfcmd⟩,
      fun _ => .inl ⟨cw, why, rest, hin, hd, hfcmd, hill⟩⟩
    simp [ht] at hill
  | reset cut rest hin hill hfcmd =>
    refine ⟨fun _ _ => .inr ⟨cut, rest, hin⟩, fun _ ht => ?_,
      fun _ => .inr ⟨⟨cut, rest, hin⟩, hfcmd⟩⟩
    simp [ht] at hill

end Sys2Proof.Machine
end

section
/-! That a command's result is a function of its sources: two states that agree in them are left with
one value in the destination, or both stop (R32). -/

namespace Sys2Proof.Machine

/-- Two matrices show the same 128-bit slots in the window (R53). -/
def sameSlots {W W' : Nat} (A : BitMatrix W) (B : BitMatrix W') : Prop :=
  ∀ k, (A.col k).setWidth 128 = (B.col k).setWidth 128

theorem sameSlots.of_eq {W : Nat} {A B : BitMatrix W} (h : A = B) : sameSlots A B := by
  subst h
  exact fun _ => rfl

/-- The slots of a matrix determine it, for `W` is at most 128. -/
theorem sameSlots.eq {w : Width} {A B : BitMatrix w.bits} (h : sameSlots A B) : A = B :=
  BitMatrix.ext_col fun k _ => by
    simpa [BitVec.setWidth_setWidth_of_le _ w.bits_le] using congrArg (BitVec.setWidth w.bits) (h k)

/-- What two executions of a command, one from `s` and one from `s'`, can end in when they agree: both
stop, or both write the same value in the same register. -/
inductive WritesAlike (s s' : State) :
    RegName → Host.Outcome State Fault Refusal → Host.Outcome State Fault Refusal → Prop where
  | stop (r : RegName) (f : Fault) : WritesAlike s s' r (.fault f) (.fault f)
  | scalar (d : SReg) {v v' : Scalar} (h : v = v') :
      WritesAlike s s' (.scalar d) (.next (s.setSR d v)) (.next (s'.setSR d v'))
  | matrix (d : MReg) {M : BitMatrix s.width.bits} {M' : BitMatrix s'.width.bits}
      (h : sameSlots M M') :
      WritesAlike s s' (.matrix d) (.next (s.setMR d M)) (.next (s'.setMR d M'))

/-- The commands with a modulus: the guard of R170, then a scalar result. -/
theorem WritesAlike.guarded {s s' : State} (d : SReg) {m m' : Nat} {v v' : Scalar} (hm : m = m')
    (hv : v = v') :
    WritesAlike s s' (.scalar d) (if m = 0 then .fault .zeroModulus else .next (s.setSR d v))
      (if m' = 0 then .fault .zeroModulus else .next (s'.setSR d v')) := by
  subst hm
  split
  · exact .stop _ _
  · exact .scalar d hv

theorem WritesAlike.exists_agreeOn {s s' t : State} {r : RegName}
    {o o' : Host.Outcome State Fault Refusal} (h : WritesAlike s s' r o o') (ho : o = .next t) :
    ∃ t', o' = .next t' ∧ agreeOn t t' r := by
  cases h with
  | stop r f => cases ho
  | scalar d hv =>
    cases ho
    exact ⟨_, rfl, by simpa [agreeOn, State.getSR_setSR] using hv⟩
  | matrix d hM =>
    cases ho
    refine ⟨_, rfl, fun k => ?_⟩
    simpa [State.mrSlot_setMR] using hM k

/-- States that differ in ILL alone: so do the results. -/
theorem WritesAlike.next_withIll {s t : State} {b : Bool} {r : RegName}
    {o o' : Host.Outcome State Fault Refusal} (h : WritesAlike s { s with ill := b } r o o')
    (ho : o = .next t) : o' = .next { t with ill := b } := by
  cases h with
  | stop r f => cases ho
  | scalar d hv =>
    cases ho
    rw [hv]
    rfl
  | matrix d hM =>
    cases ho
    cases hM.eq
    rfl

section

variable {i : Instr} {s s' : State} (h : agreeOnSources i s s')
include h

theorem agreeOnSources.width_eq : s.width = s'.width := by
  obtain ⟨hw, -⟩ := h
  exact hw

theorem agreeOnSources.getSR_eq (r : SReg) (hr : .scalar r ∈ sourcesOf i := by simp [sourcesOf]) :
    s.getSR r = s'.getSR r := by
  obtain ⟨-, hscalar, -, -⟩ := h
  exact hscalar r hr

theorem agreeOnSources.getMR_sameSlots (r : MReg)
    (hr : .matrix r ∈ sourcesOf i := by simp [sourcesOf]) :
    sameSlots (s.getMR r) (s'.getMR r) := by
  obtain ⟨-, -, hmatrix, -⟩ := h
  exact hmatrix r hr

theorem agreeOnSources.colbuf_sameSlots (hi : i.opcode = .bmNew) :
    sameSlots (.new s.colbuf) (.new s'.colbuf) := by
  obtain ⟨-, -, -, hcolbuf⟩ := h
  exact hcolbuf hi

theorem agreeOnSources.countOperand_eq (r : SReg)
    (hr : .scalar r ∈ sourcesOf i := by simp [sourcesOf]) :
    s.countOperand r = s'.countOperand r := by
  rw [State.countOperand, State.countOperand, h.getSR_eq r hr]

theorem agreeOnSources.shiftOperand_eq (r : SReg)
    (hr : .scalar r ∈ sourcesOf i := by simp [sourcesOf]) :
    s.shiftOperand r = s'.shiftOperand r := by
  rw [State.shiftOperand, State.shiftOperand, h.getSR_eq r hr]

theorem agreeOnSources.modularOperand_eq (n : Width) (r : SReg)
    (hr : .scalar r ∈ sourcesOf i := by simp [sourcesOf]) :
    s.modularOperand n r = s'.modularOperand n r := by
  rw [State.modularOperand, State.modularOperand, h.getSR_eq r hr]

theorem agreeOnSources.dividendOperand_eq (a : Width) (sg : Signedness) (r : SReg)
    (hr : .scalar r ∈ sourcesOf i := by simp [sourcesOf]) :
    s.dividendOperand a sg r = s'.dividendOperand a sg r := by
  cases sg with
  | unsigned => simp only [State.dividendOperand, h.getSR_eq r hr]
  | signed => simp only [State.dividendOperand, h.getSR_eq r hr]

end

/-- R32, of every command: it stops, or writes the same value, in all states that agree on its
sources. -/
theorem exec_writesAlike {i : Instr} {s s' : State} (h : agreeOnSources i s s') :
    WritesAlike s s' (destinationOf i) (exec i s) (exec i s') := by
  have hw := h.width_eq
  -- As states of one dimension, so that their matrices can be compared by `=`.
  obtain ⟨w⟩ := s
  obtain ⟨w'⟩ := s'
  obtain rfl : w = w' := hw
  cases i with
  | bmNew md => exact .matrix md (h.colbuf_sameSlots rfl)
  | bmZero md => exact .matrix md (.of_eq rfl)
  | bmIdent md => exact .matrix md (.of_eq rfl)
  | bmShift md sk => exact .matrix md (.of_eq (congrArg (BitMatrix.shift _) (h.shiftOperand_eq sk)))
  | bmApply sd ma sv =>
    have hv := congrArg (BitVec.setWidth w.bits) (h.getSR_eq sv)
    have happly := congrArg₂ BitMatrix.apply (h.getMR_sameSlots ma).eq hv
    exact .scalar sd (congrArg vectorResult happly)
  | bmCompose md ma mb =>
    exact .matrix md (.of_eq
      (congrArg₂ BitMatrix.compose (h.getMR_sameSlots ma).eq (h.getMR_sameSlots mb).eq))
  | bmAdd md ma mb =>
    exact .matrix md (.of_eq
      (congrArg₂ BitMatrix.add (h.getMR_sameSlots ma).eq (h.getMR_sameSlots mb).eq))
  | bmAnd md ma smask =>
    have hmask := congrArg (BitVec.setWidth w.bits) (h.getSR_eq smask)
    exact .matrix md (.of_eq (congrArg₂ BitMatrix.bitand (h.getMR_sameSlots ma).eq hmask))
  | bmShl md ma sn =>
    exact .matrix md (.of_eq
      (congrArg₂ BitMatrix.shl (h.getMR_sameSlots ma).eq (h.countOperand_eq sn)))
  | bmShr md ma sn =>
    exact .matrix md (.of_eq
      (congrArg₂ BitMatrix.shr (h.getMR_sameSlots ma).eq (h.countOperand_eq sn)))
  | bmPow md ma sn =>
    exact .matrix md (.of_eq
      (congrArg₂ BitMatrix.pow (h.getMR_sameSlots ma).eq (h.countOperand_eq sn)))
  | bmEq sd ma mb =>
    have heq := congrArg₂ BitMatrix.eq (h.getMR_sameSlots ma).eq (h.getMR_sameSlots mb).eq
    exact .scalar sd (congrArg (fun equal : Bool => if equal then 1 else 0) heq)
  | maMulmod n sd sa sb sm =>
    exact .guarded sd (h.modularOperand_eq n sm) (by
      rw [h.modularOperand_eq n sa, h.modularOperand_eq n sb, h.modularOperand_eq n sm])
  | maPowmod n sd sbase sn sm =>
    exact .guarded sd (h.modularOperand_eq n sm) (by
      rw [h.modularOperand_eq n sbase, h.countOperand_eq sn, h.modularOperand_eq n sm])
  | maWpow n sd sbase sn =>
    exact .scalar sd (by rw [h.modularOperand_eq n sbase, h.countOperand_eq sn])
  | maWgeom n sd sr sn =>
    exact .scalar sd (by rw [h.modularOperand_eq n sr, h.countOperand_eq sn])
  | maModulo n a sg sd sa sm =>
    exact .guarded sd (h.modularOperand_eq n sm) (by
      rw [h.dividendOperand_eq a sg sa, h.modularOperand_eq n sm])

/-- ILL is no source of a command. -/
theorem agreeOnSources_withIll (i : Instr) (s : State) (b : Bool) :
    agreeOnSources i s { s with ill := b } :=
  ⟨rfl, fun _ _ => rfl, fun _ _ _ => rfl, fun _ _ => rfl⟩

/-- Settles O24: what agreeing executions leave in the destination. -/
theorem commandsDependOnTheirSourcesAlone : Obligations.CommandsDependOnTheirSourcesAlone :=
  fun _ _ _ _ hagree hexec => (exec_writesAlike hagree).exists_agreeOn hexec

/-- Settles O13: the reads and writes of STATUS, the entry of IllegalCommand, and, since ILL is no
source of a command, that every command does the same under either value of it. -/
theorem statusShowsAndClearsIllAndNoCommandReadsIt :
    Obligations.StatusShowsAndClearsIllAndNoCommandReadsIt := by
  refine ⟨State.hostRead_status, fun s v hv => ?_, fun s v hv => ?_, fun s cw why hd => ?_,
    fun i s t b hexec => ?_⟩
  · rw [s.hostWrite_status, s.acknowledge_of_bit_set hv]
    rfl
  · rw [s.hostWrite_status, s.acknowledge_of_bit_clear hv]
    rfl
  · exact ⟨_, s.issue_of_error hd, rfl⟩
  · exact (exec_writesAlike (agreeOnSources_withIll i s b)).next_withIll hexec

end Sys2Proof.Machine
end

section
/-! The words of a slot as the rules of the three data blocks write them (R53 to R56), and one event
served at an address whose place in the window is known. -/

namespace Sys2Proof.Machine

/-- A word wholly above the value reads 0. -/
theorem slotWord_of_le {W : Nat} (c : BitVec W) {j : Fin 4} (h : W ≤ 32 * j.val) :
    slotWord c j = 0 :=
  if_pos h

/-- A word that meets the value shows its bits `hi` down to `lo`. -/
theorem slotWord_of_lt {W : Nat} (c : BitVec W) {j : Fin 4} (h : 32 * j.val < W) :
    slotWord c j = (c.extractLsb' (32 * j.val)
      (min (32 * j.val + 31) (W - 1) - 32 * j.val + 1)).setWidth 32 :=
  if_neg (Nat.not_le.mpr h)

/-- The four words of a scalar register divide it: none is cut short. -/
theorem slotWord_scalar (c : Scalar) (j : Fin 4) :
    slotWord c j = c.extractLsb' (32 * j.val) 32 := by
  apply BitVec.eq_of_getLsbD_eq
  intro b _
  rw [getLsbD_slotWord, BitVec.getLsbD_extractLsb']

/-- A write of a word wholly above the value changes nothing. -/
theorem setSlotWord_of_le {W : Nat} (c : BitVec W) {j : Fin 4} (v : Word) (h : W ≤ 32 * j.val) :
    setSlotWord c j v = c :=
  if_pos h

/-- A word of COLBUF written back as it stands changes nothing. -/
theorem State.setColbuf_getColbuf (s : State) (i : Fin s.width.bits) :
    s.setColbuf i (s.getColbuf i) = s := by
  change ({ s with colbuf := s.colbuf.set i.val s.colbuf[i.val] } : State) = s
  rw [Vector.set_getElem_self]

theorem aligned_of_accessShapeOk {size : AccessSize} {addr : WindowAddr}
    (h : accessShapeOk size addr = true) : addr.toNat % 4 = 0 :=
  ((accessShapeOk_iff ..).1 h).2

theorem accessShapeOk_of_aligned {addr : WindowAddr} (h : addr.toNat % 4 = 0) :
    accessShapeOk (.bits 32) addr = true :=
  (accessShapeOk_iff ..).2 ⟨rfl, h⟩

/-- A 32-bit read at a multiple of 4 answers for the location there (R52). -/
theorem State.serve_read_of_locate (s : State) {addr : WindowAddr} {loc : Location s.width.bits}
    (h4 : addr.toNat % 4 = 0) (h : locate s.width.bits addr = loc) :
    s.serve (.read (.bits 32) addr) = .next (s.respond (s.readLocation loc)) := by
  rw [State.serve, State.hostRead, if_pos (accessShapeOk_of_aligned h4), h]

/-- A 32-bit write at a multiple of 4 writes the location there (R52). -/
theorem State.serve_write_of_locate (s : State) {addr : WindowAddr} (v : Word)
    {loc : Location s.width.bits} (h4 : addr.toNat % 4 = 0)
    (h : locate s.width.bits addr = loc) :
    s.serve (.write (.bits 32) addr v) = s.writeLocation v loc := by
  rw [State.serve, State.hostWrite, if_pos (accessShapeOk_of_aligned h4), h]

/-- Settles O9: the map puts the address at word `j` of `SR[r]`, and the written value is known bit
by bit. -/
theorem scalarWindowReadsAndWritesOneWord : Obligations.ScalarWindowReadsAndWritesOneWord := by
  intro s r j addr v haddr
  have h4 : addr.toNat % 4 = 0 := by omega
  have hloc := locate_scalar s.width.bits addr r j haddr
  refine ⟨?_, setSlotWord (s.getSR r) j v, s.serve_write_of_locate v h4 hloc, ?_, ?_⟩
  · rw [s.serve_read_of_locate h4 hloc, State.readLocation, slotWord_scalar]
  · rw [← slotWord_scalar, slotWord_setSlotWord_scalar]
  · intro b hb hout
    rw [getLsbD_setSlotWord _ _ _ _ hb, if_neg hout]

/-- Settles O10: the map puts the address at word `j` of `COLBUF[i]`, which meets the column or lies
wholly above it. -/
theorem stagingWindowReadsAndWritesOneWord : Obligations.StagingWindowReadsAndWritesOneWord := by
  intro s i j addr v haddr
  have h4 : addr.toNat % 4 = 0 := by omega
  have hloc := locate_staged _ s.width.bits_le addr i j haddr
  have hread := s.serve_read_of_locate h4 hloc
  have hwrite := s.serve_write_of_locate v h4 hloc
  rw [State.readLocation] at hread
  rw [State.writeLocation] at hwrite
  refine ⟨fun habove => ⟨?_, ?_⟩, fun hmeets => ⟨?_, _, hwrite, ?_⟩⟩
  · rw [hread, slotWord_of_le _ habove]
  · rw [hwrite, setSlotWord_of_le _ _ habove, s.setColbuf_getColbuf]
  · rw [hread, slotWord_of_lt _ hmeets]
  · exact fun b hb => getLsbD_setSlotWord _ _ _ _ hb

end Sys2Proof.Machine
end

section
/-! The list of R58: which accesses get ERROR, by their shape and by the location they reach, and what
every other access is answered. -/

namespace Sys2Proof.Machine

/-- The locations no read is answered at (R51). -/
def Location.readRefused {W : Nat} : Location W → Prop
  | .cmd => True
  | .unmapped => True
  | .id | .status | .fcmd | .sr .. | .colbuf .. | .mr .. => False

/-- The locations no write is accepted at, whatever its data (R51). -/
def Location.writeRefused {W : Nat} : Location W → Prop
  | .id => True
  | .fcmd => True
  | .mr .. => True
  | .unmapped => True
  | .status | .cmd | .sr .. | .colbuf .. => False

/-- Of an address that is a multiple of 4, R58 names by number the reads that the map sends to a
location that refuses them. -/
theorem locate_readRefused_iff (W : Nat) {addr : WindowAddr} (h4 : addr.toNat % 4 = 0) :
    (locate W addr).readRefused ↔ unmappedAddr W addr.toNat ∨ addr.toNat = 0x0008 := by
  unfold unmappedAddr
  rcases locate_cases W addr h4 with
    ⟨h, ha⟩ | ⟨h, ha⟩ | ⟨h, ha⟩ | ⟨h, ha⟩ | ⟨r, j, h, ha⟩ | ⟨i, j, h, ha⟩ | ⟨r, i, j, h, ha⟩ | ⟨h, ha⟩ <;>
    · simp only [h, Location.readRefused, true_iff, false_iff]
      omega

/-- The same of the writes. -/
theorem locate_writeRefused_iff (W : Nat) {addr : WindowAddr} (h4 : addr.toNat % 4 = 0) :
    (locate W addr).writeRefused ↔ unmappedAddr W addr.toNat ∨
      addr.toNat = 0x0000 ∨ addr.toNat = 0x000C ∨ 0x8000 ≤ addr.toNat := by
  unfold unmappedAddr
  rcases locate_cases W addr h4 with
    ⟨h, ha⟩ | ⟨h, ha⟩ | ⟨h, ha⟩ | ⟨h, ha⟩ | ⟨r, j, h, ha⟩ | ⟨i, j, h, ha⟩ | ⟨r, i, j, h, ha⟩ | ⟨h, ha⟩ <;>
    · simp only [h, Location.writeRefused, true_iff, false_iff]
      omega

/-- CMD stands at its own address alone (R51). -/
theorem eq_cmdAddr_of_locate {W : Nat} {addr : WindowAddr} (h4 : addr.toNat % 4 = 0)
    (h : locate W addr = .cmd) : addr = cmdAddr := by
  apply BitVec.eq_of_toNat_eq
  change addr.toNat = 8
  rcases locate_cases W addr h4 with
    ⟨h', _⟩ | ⟨h', _⟩ | ⟨h', ha⟩ | ⟨h', _⟩ | ⟨_, _, h', _⟩ | ⟨_, _, h', _⟩ | ⟨_, _, _, h', _⟩ |
      ⟨h', _⟩ <;>
    cases h.symm.trans h'
  exact ha

/-- The shapes R58 (a) and (b) list. -/
theorem accessShapeOk_eq_false_iff (size : AccessSize) (addr : WindowAddr) :
    accessShapeOk size addr = false ↔ size ≠ .bits 32 ∨ addr.toNat % 4 ≠ 0 := by
  rw [← Bool.not_eq_true, accessShapeOk_iff, not_and_or]

/-- The reads that R58 lists are those of another shape and those the map sends to a location that
refuses them. -/
theorem accessErrorEvent_read_iff (W : Nat) (size : AccessSize) (addr : WindowAddr) :
    accessErrorEvent W (.read size addr) ↔
      accessShapeOk size addr = false ∨ (locate W addr).readRefused := by
  rw [accessErrorEvent, ← or_assoc, ← accessShapeOk_eq_false_iff]
  refine or_congr_right' fun hok => (locate_readRefused_iff W ?_).symm
  exact aligned_of_accessShapeOk (by simpa using hok)

/-- The same of the writes. -/
theorem accessErrorEvent_write_iff (W : Nat) (size : AccessSize) (addr : WindowAddr) (v : Word) :
    accessErrorEvent W (.write size addr v) ↔
      accessShapeOk size addr = false ∨ (locate W addr).writeRefused := by
  rw [accessErrorEvent, ← or_assoc, ← accessShapeOk_eq_false_iff]
  refine or_congr_right' fun hok => (locate_writeRefused_iff W ?_).symm
  exact aligned_of_accessShapeOk (by simpa using hok)

theorem State.readLocation_of_readRefused (s : State) {loc : Location s.width.bits}
    (h : loc.readRefused) : s.readLocation loc = .error := by
  cases loc with
  | cmd => rfl
  | unmapped => rfl
  | _ => exact h.elim

theorem State.exists_readLocation_eq_okayData (s : State) {loc : Location s.width.bits}
    (h : ¬ loc.readRefused) : ∃ v, s.readLocation loc = .okayData v := by
  cases loc with
  | cmd => exact (h trivial).elim
  | unmapped => exact (h trivial).elim
  | _ => exact ⟨_, rfl⟩

theorem State.writeLocation_of_writeRefused (s : State) (v : Word) {loc : Location s.width.bits}
    (h : loc.writeRefused) : s.writeLocation v loc = .next (s.respond .error) := by
  cases loc with
  | id => rfl
  | fcmd => rfl
  | mr r i j => rfl
  | unmapped => rfl
  | _ => exact h.elim

/-- A location that accepts writes, other than CMD, answers OKAY to every word. -/
theorem State.writeLocation_okay (s : State) (v : Word) {loc : Location s.width.bits}
    (h : ¬ loc.writeRefused) (hcmd : loc ≠ .cmd) :
    ∃ t, s.writeLocation v loc = .next t ∧ t.outbox = s.outbox ++ [.okay] := by
  cases loc with
  | status => exact ⟨_, rfl, rfl⟩
  | sr r j => exact ⟨_, rfl, rfl⟩
  | colbuf i j => exact ⟨_, rfl, rfl⟩
  | cmd => exact (hcmd rfl).elim
  | _ => exact (h trivial).elim

/-- An access (a) to (e) of R58 gets ERROR and changes nothing. -/
theorem State.serve_of_accessErrorEvent (s : State) {event : HostEvent}
    (h : accessErrorEvent s.width.bits event) : s.serve event = .next (s.respond .error) := by
  cases event with
  | read size addr =>
    rw [State.serve, State.hostRead]
    rcases (accessErrorEvent_read_iff ..).1 h with hshape | hloc
    · rw [if_neg (by simp [hshape])]
    · rw [s.readLocation_of_readRefused hloc, ite_self]
  | write size addr v =>
    rw [State.serve, State.hostWrite]
    rcases (accessErrorEvent_write_iff ..).1 h with hshape | hloc
    · rw [if_neg (by simp [hshape])]
    · rw [s.writeLocation_of_writeRefused v hloc, ite_self]
  | reset cut => exact h.elim

/-- Every other read is answered with a word. -/
theorem State.serve_read_okay (s : State) {size : AccessSize} {addr : WindowAddr}
    (h : ¬ accessErrorEvent s.width.bits (.read size addr)) :
    ∃ v, s.serve (.read size addr) = .next (s.respond (.okayData v)) := by
  rw [accessErrorEvent_read_iff, not_or, Bool.not_eq_false] at h
  obtain ⟨hshape, hloc⟩ := h
  obtain ⟨v, hv⟩ := s.exists_readLocation_eq_okayData hloc
  exact ⟨v, by rw [State.serve, State.hostRead, if_pos hshape, hv]⟩

/-- Every other write but one to CMD is answered OKAY. -/
theorem State.serve_write_okay (s : State) {size : AccessSize} {addr : WindowAddr} {v : Word}
    (h : ¬ accessErrorEvent s.width.bits (.write size addr v)) (hcmd : addr ≠ cmdAddr) :
    ∃ t, s.serve (.write size addr v) = .next t ∧ t.outbox = s.outbox ++ [.okay] := by
  rw [accessErrorEvent_write_iff, not_or, Bool.not_eq_false] at h
  obtain ⟨hshape, hloc⟩ := h
  rw [State.serve, State.hostWrite, if_pos hshape]
  exact s.writeLocation_okay v hloc fun he =>
    hcmd (eq_cmdAddr_of_locate (aligned_of_accessShapeOk hshape) he)

/-- A write R58 does not list is a 32-bit one. -/
theorem size_eq_of_not_accessErrorEvent {W : Nat} {size : AccessSize} {addr : WindowAddr} {v : Word}
    (h : ¬ accessErrorEvent W (.write size addr v)) : size = .bits 32 :=
  not_not.mp fun hsize => h (.inl hsize)

/-- A command with its operands defined is answered OKAY. -/
theorem State.issue_okay (s : State) {cw : Word} {i : Instr} (hd : decode cw = .ok i)
    (hdef : s.operandsDefined i) :
    ∃ t, s.issue cw = .next t ∧ t.outbox = s.outbox ++ [.okay] := by
  rw [s.issue_of_ok hd]
  rcases exec_cases i s with ⟨hzero, _⟩ | ⟨_, ⟨d, x, _, he⟩ | ⟨d, M, _, he⟩⟩
  · exact absurd hzero hdef
  · exact ⟨_, by rw [he, okayAfter], rfl⟩
  · exact ⟨_, by rw [he, okayAfter], rfl⟩

/-- Settles O8, clause by clause: the listed accesses, the other reads, the other writes but those to
CMD, and a command or an illegal word written to CMD. -/
theorem errorIsGivenExactlyToTheListedAccesses :
    Obligations.ErrorIsGivenExactlyToTheListedAccesses := by
  intro s event rest hin
  rw [step_of_inbox hin]
  refine ⟨fun h => State.serve_of_accessErrorEvent _ h, ?_, ?_⟩
  · rintro size addr rfl h
    exact State.serve_read_okay _ h
  · rintro size addr v rfl h
    obtain rfl := size_eq_of_not_accessErrorEvent h
    refine ⟨fun hne => State.serve_write_okay _ h hne, ?_, ?_⟩
    · rintro rfl i hd hdef
      exact State.issue_okay _ hd hdef
    · rintro rfl why hd
      exact State.issue_of_error _ hd

/-- Settles O11, by the map of the window for the reads and by R58 (d) for the writes. -/
theorem matrixWindowIsReadOnly : Obligations.MatrixWindowIsReadOnly := by
  refine ⟨fun s r i j addr haddr => ?_, fun s size addr v hmr => ?_⟩
  · have hloc := locate_matrix _ s.width.bits_le addr r i j haddr
    rw [s.serve_read_of_locate (by omega) hloc, State.readLocation]
    exact ⟨fun habove => by rw [slotWord_of_le _ habove],
      fun hmeets => by rw [slotWord_of_lt _ hmeets]⟩
  · exact s.serve_of_accessErrorEvent (.inr (.inr (.inr (.inr (.inr hmr)))))

end Sys2Proof.Machine
end

section
/-! One event a step, and one response a transaction (R60, R66). -/

namespace Sys2Proof.Machine

/-- Settles O20: no effect of a transaction touches the two lists before its response is added, and a
reset touches neither. -/
theorem eachTransactionGetsOneResponseInOrder :
    Obligations.EachTransactionGetsOneResponseInOrder := by
  intro s t event rest hin h
  rcases step_cases h with
    ⟨hnil, _⟩ | ⟨cut, rest', hreset, rfl⟩ | ⟨event', rest', u, r, hev, he, hne, rfl⟩
  · rw [hin] at hnil
    cases hnil
  · obtain ⟨rfl, rfl⟩ := List.cons.inj (hin.symm.trans hreset)
    exact ⟨rfl, nofun, fun _ => rfl⟩
  · obtain ⟨rfl, rfl⟩ := List.cons.inj (hin.symm.trans hev)
    obtain ⟨_, hinbox, houtbox, _⟩ := he.keeps
    refine ⟨hinbox, fun _ => ⟨r, ?_⟩, fun hreset => ?_⟩
    · rw [State.respond_outbox, houtbox]
    · cases event with
      | reset cut => exact absurd rfl (hne cut)
      | read size addr => cases hreset
      | write size addr v => cases hreset

/-- Settles O15: a read is served by its response alone. -/
theorem readsHaveNoSideEffect : Obligations.ReadsHaveNoSideEffect := by
  intro s size addr rest hin
  exact ⟨_, step_of_inbox hin⟩

end Sys2Proof.Machine
end

section
/-! Decoding and encoding: the word of a command, the legal words of R86, and the match and mask
table of R83, all read off the nine fields of a word (R81 to R88). -/

namespace Sys2Proof

open Sys2Proof.Machine

/-- An operation code is one of R83's exactly when condition (a) of R86 holds. -/
theorem Fields.opKnown_eq_isSome (f : Fields) : f.opKnown = (Opcode.ofCode f.op).isSome := by
  unfold Fields.opKnown
  generalize f.op = op
  revert op
  decide

theorem Fields.opKnown_of_code {f : Fields} {o : Opcode} (h : f.op = o.code) :
    f.opKnown = true := by
  rw [f.opKnown_eq_isSome, h, Opcode.ofCode_code, Option.isSome_some]

theorem Fields.exists_code_of_wellFormed (f : Fields) (h : f.wellFormed = true) :
    ∃ o, f.op = Opcode.code o := by
  simp only [Fields.wellFormed, Bool.and_eq_true, f.opKnown_eq_isSome, Option.isSome_iff_exists,
    and_assoc] at h
  obtain ⟨⟨o, ho⟩, -⟩ := h
  exact ⟨o, Opcode.eq_code_of_ofCode ho⟩

theorem Fields.z_eq_zero_of_wellFormed (f : Fields) (h : f.wellFormed = true) : f.z = 0 := by
  simp only [Fields.wellFormed, Fields.unusedZero, Bool.and_eq_true] at h
  obtain ⟨⟨⟨-, hz⟩, -⟩, -⟩ := h
  generalize f.format = format at hz
  cases format <;> simp_all

theorem Opcode.code_inj {o o' : Opcode} (h : o.code = o'.code) : o = o' := by
  simpa using congrArg Opcode.ofCode h

theorem Instr.op_fields (i : Instr) : i.fields.op = i.opcode.code := by
  cases i <;> rfl

theorem Width.eq_code_iff {c : BitVec 3} {w : Width} : c = w.code ↔ Width.ofCode c = some w :=
  ⟨fun h => h ▸ Width.ofCode_code w, Width.eq_code_of_ofCode⟩

/-- The five codes of a width (R84). -/
theorem Width.exists_eq_code_iff (c : BitVec 3) : (∃ w, c = Width.code w) ↔ c.toNat ≤ 4 := by
  simp only [Width.eq_code_iff, ← Option.ne_none_iff_exists', ne_eq, Width.ofCode_eq_none, not_lt]

@[simp] theorem Signedness.code_ofCode (c : BitVec 1) : (Signedness.ofCode c).code = c := by
  revert c
  decide

/-! ### When each format is read as a command -/

theorem ite_error_eq_ok {ε α : Type} {p : Prop} [Decidable p] {x : Except ε α} {e : ε} {a : α} :
    (if p then x else .error e) = .ok a ↔ p ∧ x = .ok a := by
  split <;> simp [*]

section

variable {f : Fields} {i : Instr}

theorem decodeM0_eq_ok {mk : Fin 16 → Instr} :
    decodeM0 f mk = .ok i ↔
      (f.sz = 0 ∧ f.asz = 0 ∧ f.sg = 0 ∧ f.ra = 0 ∧ f.rb = 0 ∧ f.rc = 0) ∧
        mk (registerOf f.rd) = i := by
  rw [decodeM0, ite_error_eq_ok, Except.ok.injEq]

theorem decodeM1_eq_ok {mk : Fin 16 → Fin 16 → Instr} :
    decodeM1 f mk = .ok i ↔
      (f.sz = 0 ∧ f.asz = 0 ∧ f.sg = 0 ∧ f.rb = 0 ∧ f.rc = 0) ∧
        mk (registerOf f.rd) (registerOf f.ra) = i := by
  rw [decodeM1, ite_error_eq_ok, Except.ok.injEq]

theorem decodeM2_eq_ok {mk : Fin 16 → Fin 16 → Fin 16 → Instr} :
    decodeM2 f mk = .ok i ↔
      (f.sz = 0 ∧ f.asz = 0 ∧ f.sg = 0 ∧ f.rc = 0) ∧
        mk (registerOf f.rd) (registerOf f.ra) (registerOf f.rb) = i := by
  rw [decodeM2, ite_error_eq_ok, Except.ok.injEq]

theorem decodeA2_eq_ok {mk : Width → Fin 16 → Fin 16 → Fin 16 → Instr} :
    decodeA2 f mk = .ok i ↔
      (f.asz = 0 ∧ f.sg = 0 ∧ f.rc = 0) ∧
        ∃ n, f.sz = n.code ∧ mk n (registerOf f.rd) (registerOf f.ra) (registerOf f.rb) = i := by
  simp only [decodeA2, ite_error_eq_ok, Width.eq_code_iff]
  cases Width.ofCode f.sz <;> simp

theorem decodeA3_eq_ok {mk : Width → Fin 16 → Fin 16 → Fin 16 → Fin 16 → Instr} :
    decodeA3 f mk = .ok i ↔
      (f.asz = 0 ∧ f.sg = 0) ∧
        ∃ n, f.sz = n.code ∧
          mk n (registerOf f.rd) (registerOf f.ra) (registerOf f.rb) (registerOf f.rc) = i := by
  simp only [decodeA3, ite_error_eq_ok, Width.eq_code_iff]
  cases Width.ofCode f.sz <;> simp

theorem decodeAM_eq_ok
    {mk : Width → Width → Signedness → Fin 16 → Fin 16 → Fin 16 → Instr} :
    decodeAM f mk = .ok i ↔
      f.rc = 0 ∧
        ∃ n, f.sz = n.code ∧ ∃ m, f.asz = m.code ∧
          mk n m (Signedness.ofCode f.sg) (registerOf f.rd) (registerOf f.ra) (registerOf f.rb) =
            i := by
  simp only [decodeAM, ite_error_eq_ok, Width.eq_code_iff]
  cases Width.ofCode f.sz with
  | none => simp
  | some n => cases Width.ofCode f.asz <;> simp

end

/-! ### Encode, then decode -/

/-- The fields of a command are read as that command. -/
theorem decodeFields_fields (i : Instr) : decodeFields i.fields = .ok i := by
  cases i with
  | bmNew md => rfl
  | bmZero md => rfl
  | bmIdent md => rfl
  | bmShift md sk => rfl
  | bmApply sd ma sv => rfl
  | bmCompose md ma mb => rfl
  | bmAdd md ma mb => rfl
  | bmAnd md ma smask => rfl
  | bmShl md ma sn => rfl
  | bmShr md ma sn => rfl
  | bmPow md ma sn => rfl
  | bmEq sd ma mb => rfl
  | maMulmod n sd sa sb sm => simp [decodeFields, Instr.fields, Fields.blank, decodeA3]
  | maPowmod n sd sbase sn sm => simp [decodeFields, Instr.fields, Fields.blank, decodeA3]
  | maWpow n sd sbase sn => simp [decodeFields, Instr.fields, Fields.blank, decodeA2]
  | maWgeom n sd sr sn => simp [decodeFields, Instr.fields, Fields.blank, decodeA2]
  | maModulo n a sg sd sa sm => simp [decodeFields, Instr.fields, Fields.blank, decodeAM]

/-! ### Decode, then encode -/

/-- What decodes the fields of an operation: the decoder of its format, with a constructor whose
fields are those the format gives it (R82). -/
inductive FormatDecodes (f : Fields) (o : Opcode) : Except IllegalReason Instr → Prop where
  | M0 (mk : Fin 16 → Instr) (hformat : o.format = .M0)
      (hmk : ∀ d, (mk d).fields = { Fields.blank o with rd := registerField d }) :
      FormatDecodes f o (decodeM0 f mk)
  | M1 (mk : Fin 16 → Fin 16 → Instr) (hformat : o.format = .M1)
      (hmk : ∀ d a, (mk d a).fields =
        { Fields.blank o with rd := registerField d, ra := registerField a }) :
      FormatDecodes f o (decodeM1 f mk)
  | M2 (mk : Fin 16 → Fin 16 → Fin 16 → Instr) (hformat : o.format = .M2)
      (hmk : ∀ d a b, (mk d a b).fields = { Fields.blank o with
        rd := registerField d, ra := registerField a, rb := registerField b }) :
      FormatDecodes f o (decodeM2 f mk)
  | A2 (mk : Width → Fin 16 → Fin 16 → Fin 16 → Instr) (hformat : o.format = .A2)
      (hmk : ∀ n d a b, (mk n d a b).fields = { Fields.blank o with
        sz := n.code, rd := registerField d, ra := registerField a, rb := registerField b }) :
      FormatDecodes f o (decodeA2 f mk)
  | A3 (mk : Width → Fin 16 → Fin 16 → Fin 16 → Fin 16 → Instr) (hformat : o.format = .A3)
      (hmk : ∀ n d a b c, (mk n d a b c).fields = { Fields.blank o with
        sz := n.code, rd := registerField d, ra := registerField a, rb := registerField b,
        rc := registerField c }) :
      FormatDecodes f o (decodeA3 f mk)
  | AM (mk : Width → Width → Signedness → Fin 16 → Fin 16 → Fin 16 → Instr)
      (hformat : o.format = .AM)
      (hmk : ∀ n m g d a b, (mk n m g d a b).fields = { Fields.blank o with
        sz := n.code, asz := m.code, sg := g.code, rd := registerField d, ra := registerField a,
        rb := registerField b }) :
      FormatDecodes f o (decodeAM f mk)

theorem decodeFields_formatDecodes {f : Fields} {o : Opcode} (hz : f.z = 0) (hop : f.op = o.code) :
    FormatDecodes f o (decodeFields f) := by
  have ho : Opcode.ofCode f.op = some o := by rw [hop, Opcode.ofCode_code]
  rw [decodeFields, if_pos hz, ho]
  cases o with
  | bmNew => exact .M0 .bmNew rfl fun _ => rfl
  | bmZero => exact .M0 .bmZero rfl fun _ => rfl
  | bmIdent => exact .M0 .bmIdent rfl fun _ => rfl
  | bmShift => exact .M1 .bmShift rfl fun _ _ => rfl
  | bmApply => exact .M2 .bmApply rfl fun _ _ _ => rfl
  | bmCompose => exact .M2 .bmCompose rfl fun _ _ _ => rfl
  | bmAdd => exact .M2 .bmAdd rfl fun _ _ _ => rfl
  | bmAnd => exact .M2 .bmAnd rfl fun _ _ _ => rfl
  | bmShl => exact .M2 .bmShl rfl fun _ _ _ => rfl
  | bmShr => exact .M2 .bmShr rfl fun _ _ _ => rfl
  | bmPow => exact .M2 .bmPow rfl fun _ _ _ => rfl
  | bmEq => exact .M2 .bmEq rfl fun _ _ _ => rfl
  | maMulmod => exact .A3 .maMulmod rfl fun _ _ _ _ _ => rfl
  | maPowmod => exact .A3 .maPowmod rfl fun _ _ _ _ _ => rfl
  | maWpow => exact .A2 .maWpow rfl fun _ _ _ _ => rfl
  | maWgeom => exact .A2 .maWgeom rfl fun _ _ _ _ => rfl
  | maModulo => exact .AM .maModulo rfl fun _ _ _ _ _ _ => rfl

/-- Fields that are read as a command have `z` zero and a code of R83. -/
theorem decodeFields_ok {f : Fields} {i : Instr} (h : decodeFields f = .ok i) :
    f.z = 0 ∧ ∃ o, f.op = Opcode.code o := by
  rw [decodeFields, ite_error_eq_ok] at h
  obtain ⟨hz, hmatch⟩ := h
  cases ho : Opcode.ofCode f.op with
  | none => simp [ho] at hmatch
  | some o => exact ⟨hz, o, Opcode.eq_code_of_ofCode ho⟩

/-- A command read from fields has those fields: what its format does not read is zero. -/
theorem FormatDecodes.fields_eq {f : Fields} {o : Opcode} {r : Except IllegalReason Instr}
    {i : Instr} (h : FormatDecodes f o r) (hz : f.z = 0) (hop : f.op = o.code) (hr : r = .ok i) :
    i.fields = f := by
  obtain ⟨op, sz, asz, sg, z, rd, ra, rb, rc⟩ := f
  cases hz
  cases hop
  cases h with
  | M0 mk _ hmk =>
    obtain ⟨⟨rfl, rfl, rfl, rfl, rfl, rfl⟩, rfl⟩ := decodeM0_eq_ok.1 hr
    exact hmk _
  | M1 mk _ hmk =>
    obtain ⟨⟨rfl, rfl, rfl, rfl, rfl⟩, rfl⟩ := decodeM1_eq_ok.1 hr
    exact hmk _ _
  | M2 mk _ hmk =>
    obtain ⟨⟨rfl, rfl, rfl, rfl⟩, rfl⟩ := decodeM2_eq_ok.1 hr
    exact hmk _ _ _
  | A2 mk _ hmk =>
    obtain ⟨⟨rfl, rfl, rfl⟩, n, rfl, rfl⟩ := decodeA2_eq_ok.1 hr
    exact hmk _ _ _ _
  | A3 mk _ hmk =>
    obtain ⟨⟨rfl, rfl⟩, n, rfl, rfl⟩ := decodeA3_eq_ok.1 hr
    exact hmk _ _ _ _ _
  | AM mk _ hmk =>
    obtain ⟨rfl, n, rfl, m, rfl, rfl⟩ := decodeAM_eq_ok.1 hr
    rw [hmk, Signedness.code_ofCode]
    rfl

/-- Of an operation, the fields that are read as a command are those that break none of the
conditions of R86. -/
theorem FormatDecodes.exists_ok_iff {f : Fields} {o : Opcode} {r : Except IllegalReason Instr}
    (h : FormatDecodes f o r) (hz : f.z = 0) (hop : f.op = o.code) :
    (∃ i, r = .ok i) ↔ f.wellFormed = true := by
  rw [Fields.wellFormed, Fields.opKnown_of_code hop, Fields.unusedZero, Fields.szDefined,
    Fields.aszDefined, f.format_of_code o hop]
  cases h with
  | M0 mk hformat _ => simp [decodeM0_eq_ok, hformat, hz, and_assoc]
  | M1 mk hformat _ => simp [decodeM1_eq_ok, hformat, hz, and_assoc]
  | M2 mk hformat _ => simp [decodeM2_eq_ok, hformat, hz, and_assoc]
  | A2 mk hformat _ => simp [decodeA2_eq_ok, hformat, hz, and_assoc, Width.exists_eq_code_iff]
  | A3 mk hformat _ => simp [decodeA3_eq_ok, hformat, hz, and_assoc, Width.exists_eq_code_iff]
  | AM mk hformat _ => simp [decodeAM_eq_ok, hformat, hz, and_assoc, Width.exists_eq_code_iff]

/-- Fields are read as a command exactly when they are the fields of that command. -/
theorem decodeFields_eq_ok_iff {f : Fields} {i : Instr} :
    decodeFields f = .ok i ↔ i.fields = f := by
  refine ⟨fun h => ?_, fun h => h ▸ decodeFields_fields i⟩
  obtain ⟨hz, o, hop⟩ := decodeFields_ok h
  exact (decodeFields_formatDecodes hz hop).fields_eq hz hop h

/-- Every word and every command: one is read as the other exactly when it is its word. -/
theorem decode_eq_ok_iff {cw : Word} {i : Instr} : decode cw = .ok i ↔ encode i = cw := by
  rw [decode, decodeFields_eq_ok_iff, encode]
  exact ⟨fun h => by rw [h, Fields.toWord_ofWord], fun h => by rw [← h, Fields.ofWord_toWord]⟩

/-- Settles O2, by the nine fields that the word of a command keeps. -/
theorem decodeOfEncodeIsTheCommand : Obligations.DecodeOfEncodeIsTheCommand :=
  fun _ => decode_eq_ok_iff.2 rfl

/-- Settles O3: a word read as a command has that command's fields, and the nine fields are all its
bits. -/
theorem encodeOfDecodeIsTheWord : Obligations.EncodeOfDecodeIsTheWord :=
  fun _ _ => decode_eq_ok_iff.1

/-- Settles O1, word by word. -/
theorem wordsOfTheSpecDecodeAsWritten : Obligations.WordsOfTheSpecDecodeAsWritten :=
  ⟨rfl, rfl, rfl, rfl, rfl, rfl, rfl, rfl, rfl, rfl, rfl, rfl, rfl, rfl, rfl, rfl⟩

/-! ### The four conditions of R86 -/

theorem decodeFields_exists_ok_iff (f : Fields) :
    (∃ i, decodeFields f = .ok i) ↔ f.wellFormed = true := by
  constructor
  · rintro ⟨i, h⟩
    obtain ⟨hz, o, hop⟩ := decodeFields_ok h
    exact ((decodeFields_formatDecodes hz hop).exists_ok_iff hz hop).1 ⟨i, h⟩
  · intro h
    obtain ⟨o, hop⟩ := f.exists_code_of_wellFormed h
    have hz := f.z_eq_zero_of_wellFormed h
    exact ((decodeFields_formatDecodes hz hop).exists_ok_iff hz hop).2 h

/-- The words of one operation are the legal words with its code. -/
theorem exists_decode_opcode_iff (cw : Word) (o : Opcode) :
    (∃ i, decode cw = .ok i ∧ i.opcode = o) ↔
      (Fields.ofWord cw).op = o.code ∧ (Fields.ofWord cw).wellFormed = true := by
  rw [← decodeFields_exists_ok_iff]
  constructor
  · rintro ⟨i, h, rfl⟩
    exact ⟨by rw [← decodeFields_eq_ok_iff.1 h, i.op_fields], i, h⟩
  · rintro ⟨hop, i, h⟩
    refine ⟨i, h, Opcode.code_inj ?_⟩
    rw [← hop, ← decodeFields_eq_ok_iff.1 h, i.op_fields]

theorem exists_decode_error_iff (cw : Word) :
    (∃ why, decode cw = .error why) ↔ (Fields.ofWord cw).wellFormed = false := by
  rw [← Bool.not_eq_true, ← decodeFields_exists_ok_iff, ← decode]
  cases decode cw <;> simp

theorem Fields.wellFormed_eq_false_iff (f : Fields) :
    f.wellFormed = false ↔ f.opKnown = false ∨ f.unusedZero = false ∨ f.szDefined = false ∨
      f.aszDefined = false := by
  simp only [Fields.wellFormed, Bool.and_eq_false_iff, or_assoc]

/-! ### The match and mask table of R83 -/

/-- The AND of two words field by field. -/
def Fields.and (f g : Fields) : Fields where
  op := f.op &&& g.op
  sz := f.sz &&& g.sz
  asz := f.asz &&& g.asz
  sg := f.sg &&& g.sg
  z := f.z &&& g.z
  rd := f.rd &&& g.rd
  ra := f.ra &&& g.ra
  rb := f.rb &&& g.rb
  rc := f.rc &&& g.rc

theorem Fields.ofWord_and (a b : Word) :
    Fields.ofWord (a &&& b) = (Fields.ofWord a).and (Fields.ofWord b) := by
  simp only [Fields.ofWord, Fields.and, BitVec.extractLsb'_and]

/-- A word agrees with a pattern under a mask when its fields do. -/
theorem and_toWord_eq_iff (cw : Word) (mask pattern : Fields) :
    cw &&& mask.toWord = pattern.toWord ↔ (Fields.ofWord cw).and mask = pattern := by
  constructor
  · intro h
    simpa [Fields.ofWord_and] using congrArg Fields.ofWord h
  · intro h
    rw [← Fields.toWord_ofWord (cw &&& _), Fields.ofWord_and, Fields.ofWord_toWord, h]

/-- The mask of a format (R83): ones in `op`, in `z` and in each field the format does not use. -/
def Format.mask : Format → Fields
  | .M0 => ⟨.allOnes _, .allOnes _, .allOnes _, .allOnes _, .allOnes _, 0, .allOnes _, .allOnes _,
      .allOnes _⟩
  | .M1 => ⟨.allOnes _, .allOnes _, .allOnes _, .allOnes _, .allOnes _, 0, 0, .allOnes _,
      .allOnes _⟩
  | .M2 => ⟨.allOnes _, .allOnes _, .allOnes _, .allOnes _, .allOnes _, 0, 0, 0, .allOnes _⟩
  | .A2 => ⟨.allOnes _, 0, .allOnes _, .allOnes _, .allOnes _, 0, 0, 0, .allOnes _⟩
  | .A3 => ⟨.allOnes _, 0, .allOnes _, .allOnes _, .allOnes _, 0, 0, 0, 0⟩
  | .AM => ⟨.allOnes _, 0, 0, 0, .allOnes _, 0, 0, 0, .allOnes _⟩

theorem Fields.op_and_mask (f : Fields) (format : Format) : (f.and format.mask).op = f.op := by
  cases format <;> exact BitVec.and_allOnes

/-- The row of an operation, as its code and its format make it (R82, R83). -/
def Opcode.row (o : Opcode) : CommandRow where
  opcode := o
  pattern := (Fields.blank o).toWord
  mask := o.format.mask.toWord
  limitsSz := o.format = .A2 || o.format = .A3 || o.format = .AM
  limitsAsz := o.format = .AM

/-- The rows of the table are those of the seventeen operations. -/
theorem mem_commandTable_iff (row : CommandRow) : row ∈ commandTable ↔ ∃ o, row = Opcode.row o := by
  constructor
  · have hrows : ∀ row ∈ commandTable, row = row.opcode.row := by decide
    exact fun h => ⟨_, hrows row h⟩
  · rintro ⟨o, rfl⟩
    cases o <;> decide

/-- A row admits the legal words with its operation's code. -/
theorem Opcode.row_admits_iff (o : Opcode) (cw : Word) :
    o.row.admits cw = true ↔
      (Fields.ofWord cw).op = o.code ∧ (Fields.ofWord cw).wellFormed = true := by
  have hsz : cw.extractLsb' 23 3 = (Fields.ofWord cw).sz := rfl
  have hasz : cw.extractLsb' 20 3 = (Fields.ofWord cw).asz := rfl
  simp only [CommandRow.admits, Opcode.row, and_toWord_eq_iff, hsz, hasz]
  generalize Fields.ofWord cw = f
  by_cases hop : f.op = o.code
  · rw [Fields.wellFormed, Fields.opKnown_of_code hop, Fields.unusedZero, Fields.szDefined,
      Fields.aszDefined, f.format_of_code o hop]
    -- `allOnes` stays unevaluated, so that `BitVec.and_allOnes` applies to the fields it keeps.
    cases o.format <;>
      simp [Fields.and, Fields.blank, Format.mask, hop, and_assoc, -BitVec.reduceAllOnes]
  · have hne : f.and o.format.mask ≠ Fields.blank o := fun h =>
      hop ((f.op_and_mask o.format).symm.trans (congrArg Fields.op h))
    simp [hop, hne]

/-- Settles O4: both sides are the legal words with the operation's code. -/
theorem decodingIsTheMatchAndMaskTable : Obligations.DecodingIsTheMatchAndMaskTable := by
  intro cw o
  rw [exists_decode_opcode_iff, ← Opcode.row_admits_iff]
  constructor
  · exact fun h => ⟨o.row, (mem_commandTable_iff _).2 ⟨o, rfl⟩, rfl, h⟩
  · rintro ⟨row, hmem, hrow, h⟩
    obtain ⟨o', rfl⟩ := (mem_commandTable_iff _).1 hmem
    obtain rfl : o' = o := hrow
    exact h

/-- A word is illegal exactly when no row admits it. -/
theorem wellFormed_eq_false_iff_forall_row (cw : Word) :
    (Fields.ofWord cw).wellFormed = false ↔ ∀ row ∈ commandTable, row.admits cw = false := by
  simp only [mem_commandTable_iff, forall_exists_index, forall_eq_apply_imp_iff,
    ← Bool.not_eq_true, Opcode.row_admits_iff, not_and]
  refine ⟨fun h _ _ => h, fun h hw => ?_⟩
  obtain ⟨o, hop⟩ := (Fields.ofWord cw).exists_code_of_wellFormed hw
  exact h o hop hw

/-- Settles O5: legal words are those that break none of the four conditions and those a row admits;
an illegal one is recorded. -/
theorem illegalWordsAreThoseOfTheFourConditions :
    Obligations.IllegalWordsAreThoseOfTheFourConditions := by
  refine ⟨fun cw => ?_, fun cw => ?_, fun cw why s h => s.issue_of_error h, ⟨_, decode_zero⟩,
    ⟨.mustBeZero, rfl⟩⟩
  · rw [exists_decode_error_iff, Fields.wellFormed_eq_false_iff]
  · rw [exists_decode_error_iff, wellFormed_eq_false_iff_forall_row]

end Sys2Proof
end

section
/-! The four writes of SETS (R92), each of one word of a scalar register (R54). -/

namespace Sys2Proof.Machine

/-- A write of `value`'s own word `j` makes the bits of that word those of `value`. -/
theorem getLsbD_setSlotWord_extractLsb' (c value : Scalar) (j : Fin 4) {lo b : Nat}
    (hlo : lo = 32 * j.val) (hb : b < 128) :
    (setSlotWord c j (value.extractLsb' lo 32)).getLsbD b =
      if b / 32 = j.val then value.getLsbD b else c.getLsbD b := by
  subst hlo
  rw [getLsbD_setSlotWord _ _ _ _ hb, BitVec.getLsbD_extractLsb']
  by_cases hword : b / 32 = j.val
  · have hbit : b - 32 * j.val < 32 := by omega
    rw [if_pos (by omega), if_pos hword, decide_eq_true hbit, Bool.true_and,
      Nat.add_sub_cancel' (by omega)]
  · rw [if_neg (by omega), if_neg hword]

/-- The four words of a scalar register, written one after the other, leave nothing of what was
there. -/
theorem setSlotWord_all (c value : Scalar) :
    setSlotWord (setSlotWord (setSlotWord (setSlotWord c 0 (value.extractLsb' 0 32))
      1 (value.extractLsb' 32 32)) 2 (value.extractLsb' 64 32)) 3 (value.extractLsb' 96 32) =
      value := by
  apply BitVec.eq_of_getLsbD_eq
  intro b hb
  rw [getLsbD_setSlotWord_extractLsb' _ _ 3 (lo := 96) rfl hb,
    getLsbD_setSlotWord_extractLsb' _ _ 2 (lo := 64) rfl hb,
    getLsbD_setSlotWord_extractLsb' _ _ 1 (lo := 32) rfl hb,
    getLsbD_setSlotWord_extractLsb' _ _ 0 (lo := 0) rfl hb]
  have hword : b / 32 = 0 ∨ b / 32 = 1 ∨ b / 32 = 2 ∨ b / 32 = 3 := by omega
  rcases hword with h | h | h | h <;> simp [h]

theorem State.setSR_getSR (s : State) (r : SReg) : s.setSR r (s.getSR r) = s := by
  change ({ s with sr := s.sr.set r.val s.sr[r.val] } : State) = s
  rw [Vector.set_getElem_self]

/-- The second write of a scalar register replaces the first. -/
theorem State.setSR_setSR (s : State) (r : SReg) (v w : Scalar) :
    (s.setSR r v).setSR r w = s.setSR r w := by
  change ({ s with sr := (s.sr.set r.val v).set r.val w } : State) = s.setSR r w
  rw [Vector.set_set]
  rfl

/-- `s` in the middle of a run of writes to `SR[r]`, which holds `x` by now: the events still to
come and the responses given. -/
def State.whileLoading (s : State) (r : SReg) (x : Scalar) (inbox : List HostEvent)
    (outbox : List Response) : State :=
  { s.setSR r x with inbox := inbox, outbox := outbox }

theorem State.whileLoading_start (s : State) (r : SReg) :
    s.whileLoading r (s.getSR r) s.inbox s.outbox = s := by
  rw [State.whileLoading, s.setSR_getSR]

/-- A write of the register, answered OKAY, goes on to the next event. -/
theorem State.respond_setSR_whileLoading (s : State) (r : SReg) (x y : Scalar)
    (inbox : List HostEvent) (outbox : List Response) :
    ((s.whileLoading r x inbox outbox).setSR r y).respond .okay =
      s.whileLoading r y inbox (outbox ++ [.okay]) :=
  congrArg (fun t : State => { t with inbox := inbox, outbox := outbox ++ [Response.okay] })
    (s.setSR_setSR r x y)

theorem State.getSR_whileLoading (s : State) (r : SReg) (x : Scalar) (inbox : List HostEvent)
    (outbox : List Response) : (s.whileLoading r x inbox outbox).getSR r = x :=
  (s.getSR_setSR r r x).trans (if_pos rfl)

/-- The step that serves the write of one word of the register. -/
theorem State.run_whileLoading (s : State) (r : SReg) (x : Scalar) (j : Fin 4) (v : Word)
    (rest : List HostEvent) (outbox : List Response) (k : Nat) :
    core.run (k + 1)
        (s.whileLoading r x (hw (0x0100 + 0x10 * r.val + 4 * j.val) v :: rest) outbox) =
      core.run k (s.whileLoading r (setSlotWord x j v) rest (outbox ++ [.okay])) := by
  have haddr : (BitVec.ofNat 16 (0x0100 + 0x10 * r.val + 4 * j.val)).toNat =
      0x0100 + 0x10 * r.val + 4 * j.val := by
    rw [BitVec.toNat_ofNat]
    omega
  have hserve := (s.whileLoading r x rest outbox).serve_write_of_locate v (by omega)
    (locate_scalar _ _ r j haddr)
  rw [State.writeLocation, State.getSR_whileLoading, State.respond_setSR_whileLoading] at hserve
  exact run_of_next k ((step_of_inbox rfl).trans hserve)

/-- Settles O25, by four steps that each write one word of the register. -/
theorem setsLoadsAScalarRegister : Obligations.SetsLoadsAScalarRegister := by
  intro s r value hin
  calc core.run 4 s
    _ = core.run 4 (s.whileLoading r (s.getSR r) (sets r value) s.outbox) := by
      rw [← hin, s.whileLoading_start]
    _ = core.run 3 _ := s.run_whileLoading r _ 0 _ _ _ 3
    _ = core.run 2 _ := s.run_whileLoading r _ 1 _ _ _ 2
    _ = core.run 1 _ := s.run_whileLoading r _ 2 _ _ _ 1
    _ = core.run 0 _ := s.run_whileLoading r _ 3 _ _ _ 0
    _ = .next (s.whileLoading r value [] (s.outbox ++ [.okay, .okay, .okay, .okay])) := by
      rw [setSlotWord_all]
      simp [Host.Core.run]

end Sys2Proof.Machine
end

section
/-! The matrices as linear maps: the identity applied, a matrix whose columns are the images of a
linear function, extensionality, and the laws of R120 to R122, R126 and R128. -/

namespace Sys2Proof.Machine.BitMatrix

variable {W : Nat}

/-- A round of the loop of R113 as an XOR, of the zero vector where the bit is clear. -/
theorem applyBelow_succ (M : BitMatrix W) (v : BitVec W) (n : Nat) :
    M.applyBelow v (n + 1) = M.applyBelow v n ^^^ if v.getLsbD n then M.col n else 0#W := by
  rw [applyBelow]
  split <;> simp

/-- The loop of R113 over the identity gathers the bits of the vector, one in each round. -/
theorem getLsbD_applyBelow_identity (v : BitVec W) {n : Nat} (hn : n ≤ W) (j : Nat) :
    ((identity W).applyBelow v n).getLsbD j = (decide (j < n) && v.getLsbD j) := by
  induction n with
  | zero => simp [applyBelow]
  | succ n ih =>
    have hnW : n < W := by omega
    rw [applyBelow_succ, BitVec.getLsbD_xor, ih (by omega), apply_ite (BitVec.getLsbD · j),
      col_identity hnW, getLsbD_basisVector]
    by_cases hj : j = n
    · subst hj
      simp [hnW]
    · have hlt : j < n + 1 ↔ j < n := by omega
      simp [hj, hlt]

@[simp] theorem apply_identity (v : BitVec W) : (identity W).apply v = v := by
  apply BitVec.eq_of_getLsbD_eq
  intro j hj
  rw [apply, getLsbD_applyBelow_identity v le_rfl]
  simp [hj]

/-- A function that carries XOR through is the loop over its images of the basis vectors. -/
theorem applyBelow_eq_of_linear {M : BitMatrix W} {f : BitVec W → BitVec W}
    (hxor : ∀ v w, f (v ^^^ w) = f v ^^^ f w) (hcol : ∀ i < W, M.col i = f (basisVector W i))
    (v : BitVec W) {n : Nat} (hn : n ≤ W) :
    M.applyBelow v n = f ((identity W).applyBelow v n) := by
  have hzero : f 0#W = 0#W := by simpa using hxor 0#W 0#W
  induction n with
  | zero => rw [applyBelow, applyBelow, hzero]
  | succ n ih =>
    rw [applyBelow_succ, applyBelow_succ, ih (by omega), hcol n (by omega),
      col_identity (by omega), hxor, apply_ite f, hzero]

/-- Column `i` is the image of basis vector `i` (R110), so the columns determine a linear
function. -/
theorem apply_eq_of_linear {M : BitMatrix W} {f : BitVec W → BitVec W}
    (hxor : ∀ v w, f (v ^^^ w) = f v ^^^ f w) (hcol : ∀ i < W, M.col i = f (basisVector W i))
    (v : BitVec W) : M.apply v = f v := by
  rw [apply, applyBelow_eq_of_linear hxor hcol v le_rfl, ← apply, apply_identity]

/-- The loop of R113 meets the one bit of a basis vector in round `i`. -/
theorem applyBelow_basisVector (M : BitMatrix W) (i : Nat) {n : Nat} (hn : n ≤ W) :
    M.applyBelow (basisVector W i) n = if i < n then M.col i else 0#W := by
  induction n with
  | zero => simp [applyBelow]
  | succ n ih =>
    have hbit : (basisVector W i).getLsbD n = decide (n = i) := by
      simpa [getLsbD_basisVector] using fun _ => hn
    rw [applyBelow_succ, ih (by omega), hbit]
    by_cases hi : n = i
    · simp [hi]
    · have hlt : i < n + 1 ↔ i < n := by omega
      simp [hi, hlt]

theorem apply_basisVector (M : BitMatrix W) {i : Nat} (hi : i < W) :
    M.apply (basisVector W i) = M.col i := by
  rw [apply, M.applyBelow_basisVector i le_rfl, if_pos hi]

/-- Two matrices that map every vector alike are equal (R128). -/
theorem ext_apply {A B : BitMatrix W} (h : ∀ v, A.apply v = B.apply v) : A = B := by
  apply ext_col
  intro i hi
  rw [← A.apply_basisVector hi, h, B.apply_basisVector hi]

@[simp] theorem apply_zeroMatrix (v : BitVec W) : (zero W).apply v = 0#W :=
  apply_eq_of_linear (f := fun _ => 0#W) (by simp) (fun i _ => col_zero i) v

@[simp] theorem identity_compose (A : BitMatrix W) : (identity W).compose A = A :=
  ext_apply fun v => by rw [apply_compose, apply_identity]

@[simp] theorem compose_identity (A : BitMatrix W) : A.compose (identity W) = A :=
  ext_apply fun v => by rw [apply_compose, apply_identity]

@[simp] theorem zero_compose (A : BitMatrix W) : (zero W).compose A = zero W :=
  ext_apply fun v => by rw [apply_compose, apply_zeroMatrix, apply_zeroMatrix]

@[simp] theorem compose_zero (A : BitMatrix W) : A.compose (zero W) = zero W :=
  ext_apply fun v => by rw [apply_compose, apply_zeroMatrix, apply_zero]

theorem apply_add (A B : BitMatrix W) (v : BitVec W) :
    (A.add B).apply v = A.apply v ^^^ B.apply v := by
  refine apply_eq_of_linear (f := fun v => A.apply v ^^^ B.apply v) (fun v w => ?_)
    (fun i hi => ?_) v
  · rw [apply_xor, apply_xor]
    ac_rfl
  · rw [col_add A B hi, apply_basisVector A hi, apply_basisVector B hi]

theorem apply_bitand (A : BitMatrix W) (mask v : BitVec W) :
    (A.bitand mask).apply v = A.apply v &&& mask := by
  refine apply_eq_of_linear (f := fun v => A.apply v &&& mask) (fun v w => ?_) (fun i hi => ?_) v
  · rw [apply_xor]
    ext j hj
    simp [Bool.and_xor_distrib_right]
  · rw [col_bitand A mask hi, apply_basisVector A hi]

theorem compose_add (A B C : BitMatrix W) :
    A.compose (B.add C) = (A.compose B).add (A.compose C) :=
  ext_apply fun v => by simp only [apply_compose, apply_add, apply_xor]

theorem add_compose (A B C : BitMatrix W) :
    (A.add B).compose C = (A.compose C).add (B.compose C) :=
  ext_apply fun v => by simp only [apply_compose, apply_add]

/-! ### The shifts (R112, R124, R125) -/

/-- The shift of R112 without its guards. -/
theorem shiftWord_eq (a : BitVec W) (k : Int) :
    shiftWord a k = if 0 ≤ k then a <<< k.toNat else a >>> (-k).toNat := by
  rw [shiftWord, shiftLeftWord_eq, shiftRightWord_eq]

theorem shiftWord_xor (a b : BitVec W) (k : Int) :
    shiftWord (a ^^^ b) k = shiftWord a k ^^^ shiftWord b k := by
  simp only [shiftWord_eq]
  split
  · rw [BitVec.shiftLeft_xor_distrib]
  · rw [BitVec.ushiftRight_xor_distrib]

theorem shiftWord_zero (a : BitVec W) : shiftWord a 0 = a := by
  simp [shiftWord_eq]

theorem shiftWord_natCast (a : BitVec W) (n : Nat) : shiftWord a n = shiftLeftWord a n := by
  simp [shiftWord_eq, shiftLeftWord_eq]

theorem shiftWord_neg_natCast (a : BitVec W) (n : Nat) :
    shiftWord a (-n) = shiftRightWord a n := by
  cases n with
  | zero => simp [shiftWord_zero, shiftRightWord_eq]
  | succ n =>
    have hneg : ¬ (0 : Int) ≤ -((n + 1 : Nat) : Int) := by omega
    rw [shiftWord, if_neg hneg, neg_neg, Int.toNat_natCast]

theorem apply_shift (k : Int) (v : BitVec W) : (shift W k).apply v = shiftWord v k :=
  apply_eq_of_linear (f := fun v => shiftWord v k) (fun v w => shiftWord_xor v w k)
    (fun _ hi => col_shift k hi) v

theorem identity_eq_shift_zero : identity W = shift W 0 :=
  ext_apply fun v => by rw [apply_identity, apply_shift, shiftWord_zero]

theorem shl_eq_compose (A : BitMatrix W) (n : Nat) : A.shl n = (shift W n).compose A := by
  apply ext_col
  intro i hi
  rw [col_shl A n hi, col_compose _ A hi, apply_shift, shiftWord_natCast]

theorem shr_eq_compose (A : BitMatrix W) (n : Nat) : A.shr n = (shift W (-n)).compose A := by
  apply ext_col
  intro i hi
  rw [col_shr A n hi, col_compose _ A hi, apply_shift, shiftWord_neg_natCast]

/-- A shift up and a shift down by one lose different bits, so they do not commute. -/
theorem shift_one_compose_shift_neg_one_ne :
    (shift 32 1).compose (shift 32 (-1)) ≠ (shift 32 (-1)).compose (shift 32 1) := by
  intro h
  have hone := congrArg (fun M => M.apply 1#32) h
  simp only [apply_compose, apply_shift] at hone
  exact absurd hone (by decide)

end Sys2Proof.Machine.BitMatrix

namespace Sys2Proof.Machine

/-- Settles O44, by pushing the outer matrix through the loop of the inner one. -/
theorem composeIsFunctionComposition : Obligations.ComposeIsFunctionComposition :=
  fun _ => BitMatrix.apply_compose

/-- Settles O45, by linearity of each round of the loop. -/
theorem applyIsLinear : Obligations.ApplyIsLinear :=
  fun _ A v w => ⟨A.apply_xor v w, A.apply_zero⟩

/-- Settles O46. Shifts by one up and down are the two matrices that do not commute. -/
theorem composeIsAMonoidWithZero : Obligations.ComposeIsAMonoidWithZero :=
  ⟨fun _ => BitMatrix.compose_assoc,
    fun _ A => ⟨A.identity_compose, A.compose_identity, A.zero_compose, A.compose_zero⟩,
    _, _, BitMatrix.shift_one_compose_shift_neg_one_ne⟩

/-- Settles O48: the matrix of a shift maps every vector as the native shift does. -/
theorem shiftAgreesWithNativeShifts : Obligations.ShiftAgreesWithNativeShifts := by
  intro W v
  refine ⟨fun k hk => ?_, fun k hk => ?_, BitMatrix.identity_eq_shift_zero⟩
  · rw [BitMatrix.apply_shift, BitMatrix.shiftWord_eq, if_pos hk, BitVec.toNat_shiftLeft,
      Nat.shiftLeft_eq]
  · rw [BitMatrix.apply_shift, BitMatrix.shiftWord_eq, if_neg (not_le.2 hk),
      BitVec.toNat_ushiftRight, Nat.shiftRight_eq_div_pow]

/-- Settles O49. The two clauses on the identity are the first two with a neutral right factor. -/
theorem columnShiftsAreCompositions : Obligations.ColumnShiftsAreCompositions := by
  intro W A n
  refine ⟨A.shl_eq_compose n, A.shr_eq_compose n, ?_, ?_⟩
  · rw [BitMatrix.shl_eq_compose, BitMatrix.compose_identity]
  · rw [BitMatrix.shr_eq_compose, BitMatrix.compose_identity]

/-- Settles O50. -/
theorem addAndBitandUnderApply : Obligations.AddAndBitandUnderApply := by
  intro W A B C mask v k
  refine ⟨A.apply_add B v, A.apply_bitand mask v, ?_, A.compose_add B C, A.add_compose B C⟩
  rw [BitMatrix.apply_add, BitMatrix.apply_identity, BitMatrix.apply_shift,
    BitMatrix.shiftWord_eq, apply_ite (v ^^^ ·)]

/-- Settles O51: equal columns make equal matrices, and so do equal images. -/
theorem equalityIsExtensional : Obligations.EqualityIsExtensional := by
  intro W A B
  rw [BitMatrix.eq_iff]
  constructor
  · intro hcol v
    rw [BitMatrix.ext_col hcol]
  · intro happly i _
    rw [BitMatrix.ext_apply happly]

end Sys2Proof.Machine
end

section
/-! Powers of a matrix (R118, R123, R127). `apply` embeds the matrices in the monoid of functions on
vectors, and the square and multiply loop is followed there. -/

namespace Sys2Proof.Machine.BitMatrix

variable {W : Nat}

/-- The linear map of a matrix, as an element of the monoid of functions on vectors. -/
def toEnd (M : BitMatrix W) : Function.End (BitVec W) := M.apply

theorem toEnd_injective : Function.Injective (toEnd (W := W)) :=
  fun _ _ h => ext_apply (congrFun h)

theorem toEnd_identity : (identity W).toEnd = 1 := funext apply_identity

theorem toEnd_compose (A B : BitMatrix W) : (A.compose B).toEnd = A.toEnd * B.toEnd :=
  funext (apply_compose A B)

theorem toEnd_iterate (M : BitMatrix W) (n : Nat) : (M.iterate n).toEnd = M.toEnd ^ n := by
  induction n with
  | zero => rw [iterate, toEnd_identity, pow_zero]
  | succ n ih => rw [iterate, toEnd_compose, ih, pow_succ']

/-- With enough rounds the loop of R118 computes `n`-fold composition. -/
theorem squaringLoop_compose_eq_iterate (M : BitMatrix W) {n rounds : Nat}
    (h : bitLength n ≤ rounds) :
    squaringLoop compose rounds n (identity W) M = M.iterate n := by
  apply toEnd_injective
  obtain ⟨hpow, -⟩ := squaringLoop_map compose toEnd (fun _ => True) (fun _ _ _ _ => trivial)
    (fun A B _ _ => toEnd_compose A B) rounds n (identity W) M h trivial trivial
  rw [hpow, toEnd_identity, one_mul, toEnd_iterate]

theorem pow_eq_iterate (M : BitMatrix W) (n : Nat) : M.pow n = M.iterate n :=
  M.squaringLoop_compose_eq_iterate le_rfl

/-- The same with `result *= base` as `compose(base, result)`: the product of the opposite
monoid. -/
theorem powerBySquaring_flip_compose (M : BitMatrix W) (n : Nat) :
    powerBySquaring (fun x y => y.compose x) (identity W) M n = M.iterate n := by
  apply toEnd_injective
  apply MulOpposite.op_injective
  obtain ⟨hpow, -⟩ := powerBySquaring_map (fun x y => y.compose x)
    (fun A => MulOpposite.op A.toEnd) (fun _ => True) (fun _ _ _ _ => trivial)
    (fun A B _ _ => by rw [toEnd_compose, MulOpposite.op_mul]) (identity W) M n trivial trivial
  rw [hpow, toEnd_identity, MulOpposite.op_one, one_mul, toEnd_iterate, MulOpposite.op_pow]

theorem toEnd_pow (M : BitMatrix W) (n : Nat) : (M.pow n).toEnd = M.toEnd ^ n := by
  rw [pow_eq_iterate, toEnd_iterate]

theorem identity_pow (n : Nat) : (identity W).pow n = identity W :=
  toEnd_injective <| by rw [toEnd_pow, toEnd_identity, one_pow]

theorem pow_zero_eq_identity (A : BitMatrix W) : A.pow 0 = identity W :=
  toEnd_injective <| by rw [toEnd_pow, toEnd_identity, pow_zero]

theorem pow_one_eq_self (A : BitMatrix W) : A.pow 1 = A :=
  toEnd_injective <| by rw [toEnd_pow, pow_one]

theorem pow_add_eq_compose (A : BitMatrix W) (m n : Nat) :
    A.pow (m + n) = (A.pow m).compose (A.pow n) :=
  toEnd_injective <| by rw [toEnd_compose, toEnd_pow, toEnd_pow, toEnd_pow, pow_add]

end Sys2Proof.Machine.BitMatrix

namespace Sys2Proof.Machine

/-- Settles O43, in the monoid of functions on vectors and in its opposite. -/
theorem powBySquaringIsNFoldComposition : Obligations.PowBySquaringIsNFoldComposition :=
  fun _ M n => ⟨M.pow_eq_iterate n, M.powerBySquaring_flip_compose n,
    fun _ h => M.squaringLoop_compose_eq_iterate h⟩

/-- Settles O47. Powers commute because both products are the power of the sum. -/
theorem powersAddAndCommute : Obligations.PowersAddAndCommute := by
  intro W A m n
  refine ⟨BitMatrix.identity_pow n, A.pow_zero_eq_identity, A.pow_one_eq_self,
    A.pow_add_eq_compose m n, ?_⟩
  rw [← BitMatrix.pow_add_eq_compose, ← BitMatrix.pow_add_eq_compose, Nat.add_comm]

end Sys2Proof.Machine
end

section
/-! The twelve commands of the bit-matrix unit (R129 to R141): the word of each, and what it writes
in the terms of the spec's tables. -/

namespace Sys2Proof.Machine.BitMatrix

variable {W : Nat}

/-! ### The columns of a shift as powers of two -/

theorem ofNat_two_pow_of_le {n : Nat} (h : W ≤ n) : BitVec.ofNat W (2 ^ n) = 0#W := by
  apply BitVec.eq_of_toNat_eq
  rw [BitVec.toNat_ofNat, BitVec.toNat_ofNat, Nat.zero_mod]
  exact Nat.mod_eq_zero_of_dvd (pow_dvd_pow 2 h)

theorem basisVector_eq_ofNat (i : Nat) : basisVector W i = BitVec.ofNat W (2 ^ i) := by
  apply BitVec.eq_of_toNat_eq
  rw [basisVector, shiftLeftWord_eq, ← BitVec.twoPow_eq, BitVec.toNat_twoPow, BitVec.toNat_ofNat]

theorem basisVector_shiftLeft (i n : Nat) :
    basisVector W i <<< n = BitVec.ofNat W (2 ^ (i + n)) := by
  rw [← basisVector_eq_ofNat, basisVector, basisVector, shiftLeftWord_eq, shiftLeftWord_eq,
    BitVec.shiftLeft_add]

theorem basisVector_shiftRight {i : Nat} (hi : i < W) (n : Nat) :
    basisVector W i >>> n = if n ≤ i then BitVec.ofNat W (2 ^ (i - n)) else 0#W := by
  rw [← basisVector_eq_ofNat]
  apply BitVec.eq_of_getLsbD_eq
  intro j hj
  rw [BitVec.getLsbD_ushiftRight, getLsbD_basisVector]
  by_cases hn : n ≤ i
  · have hbit : n + j = i ↔ j = i - n := by omega
    rw [if_pos hn, getLsbD_basisVector]
    have hlt : j = i - n → n + j < W := by omega
    simpa [hbit, hj] using hlt
  · have hbit : n + j ≠ i := by omega
    simp [hn, hbit]

/-- The five cases of R112's table are the two shifts of a basis vector. -/
theorem shiftWord_basisVector {i : Nat} (hi : i < W) (k : Int) :
    shiftWord (basisVector W i) k = shiftColumnTable W k i := by
  rw [shiftWord_eq, shiftColumnTable]
  by_cases hk : 0 ≤ k
  · rw [if_pos hk, if_pos hk, basisVector_shiftLeft]
    by_cases hin : i + k.toNat ≤ W - 1
    · rw [if_neg (by omega), if_pos hin]
    · rw [ofNat_two_pow_of_le (by omega), if_neg hin, ite_self]
  · rw [if_neg hk, if_neg hk, basisVector_shiftRight hi]
    by_cases hin : 0 ≤ (i : Int) + k
    · have hexp : ((i : Int) + k).toNat = i - (-k).toNat := by omega
      rw [if_pos (by omega), if_neg (by omega), if_pos hin, hexp]
    · rw [if_neg (by omega), if_neg hin, ite_self]

/-! ### The loop of R113 as one sum -/

theorem applyBelow_eq_foldr (M : BitMatrix W) (v : BitVec W) (n : Nat) :
    M.applyBelow v n =
      (((List.range n).filter fun i => v.getLsbD i).map M.col).foldr (· ^^^ ·) 0#W := by
  induction n with
  | zero => simp [applyBelow]
  | succ n ih =>
    rw [applyBelow_succ, ih, List.range_succ, List.filter_append, List.map_append,
      List.foldr_append]
    cases hbit : v.getLsbD n with
    | false => simp [hbit]
    | true =>
      have hassoc := List.foldr_assoc (op := (· ^^^ · : BitVec W → BitVec W → BitVec W))
        (l := ((List.range n).filter fun i => v.getLsbD i).map M.col) (a₁ := 0#W) (a₂ := M.col n)
      simpa [hbit] using hassoc.symm

theorem apply_eq_columnsXor (M : BitMatrix W) (v : BitVec W) : M.apply v = columnsXor M v :=
  M.applyBelow_eq_foldr v W

end Sys2Proof.Machine.BitMatrix

namespace Sys2Proof.Machine

/-- The word of a command that names registers alone (formats M0, M1 and M2 of R82), as a number. -/
theorem decode_of_registerFields {i : Instr} (o : Opcode) (d a b : Fin 16)
    (h : i.fields = { Fields.blank o with
      rd := registerField d, ra := registerField a, rb := registerField b }) :
    decode (BitVec.ofNat 32
      (0x04000000 * o.code.toNat + 0x1000 * d.val + 0x100 * a.val + 0x10 * b.val)) = .ok i := by
  rw [decode_eq_ok_iff, encode, h]
  rfl

theorem exec_bmPow (md ma : MReg) (sn : SReg) (s : State) :
    exec (.bmPow md ma sn) s = .next (s.setMR md ((s.getMR ma).pow (s.getSR sn).toNat)) := rfl

theorem exec_bmEq (sd : SReg) (ma mb : MReg) (s : State) :
    exec (.bmEq sd ma mb) s =
      .next (s.setSR sd (if (s.getMR ma).eq (s.getMR mb) then 1 else 0)) := rfl

/-- Settles O26. -/
theorem bmNewCopiesTheStagingBuffer : Obligations.BmNewCopiesTheStagingBuffer :=
  fun s md => ⟨decode_of_registerFields .bmNew md 0 0 rfl, .new s.colbuf, rfl,
    fun i => BitMatrix.col_new s.colbuf i.isLt⟩

/-- Settles O27. -/
theorem bmZeroClearsEveryColumn : Obligations.BmZeroClearsEveryColumn :=
  fun _ md => ⟨decode_of_registerFields .bmZero md 0 0 rfl, .zero _, rfl,
    fun i _ => BitMatrix.col_zero i⟩

/-- Settles O28: basis vector `i` is the word `2^i`. -/
theorem bmIdentSetsTheDiagonal : Obligations.BmIdentSetsTheDiagonal :=
  fun _ md => ⟨decode_of_registerFields .bmIdent md 0 0 rfl, .identity _, rfl,
    fun i hi => (BitMatrix.col_identity hi).trans (BitMatrix.basisVector_eq_ofNat i)⟩

/-- Settles O29, by the shifts of a basis vector. -/
theorem bmShiftBuildsTheShiftOperator : Obligations.BmShiftBuildsTheShiftOperator :=
  fun s md sk => ⟨decode_of_registerFields .bmShift md sk 0 rfl,
    .shift _ (s.getSR sk).toInt, rfl,
    fun _ hi => (BitMatrix.col_shift _ hi).trans (BitMatrix.shiftWord_basisVector hi _)⟩

/-- Settles O30: the loop of `apply` adds up the selected columns. -/
theorem bmApplyXorsTheSelectedColumns : Obligations.BmApplyXorsTheSelectedColumns := by
  intro s sd ma sv
  refine ⟨decode_of_registerFields .bmApply sd ma sv rfl, ?_⟩
  rw [exec_bmApply, BitMatrix.apply_eq_columnsXor]
  rfl

/-- Settles O31: the sources are those of the state before, so the registers may coincide. -/
theorem bmComposeAppliesTheFirstToEachColumnOfTheSecond :
    Obligations.BmComposeAppliesTheFirstToEachColumnOfTheSecond :=
  fun s md ma mb => ⟨decode_of_registerFields .bmCompose md ma mb rfl, _,
    exec_bmCompose md ma mb s,
    fun _ hi => (BitMatrix.col_compose _ _ hi).trans (BitMatrix.apply_eq_columnsXor _ _)⟩

/-- Settles O32. -/
theorem bmAddXorsTheColumns : Obligations.BmAddXorsTheColumns :=
  fun s md ma mb => ⟨decode_of_registerFields .bmAdd md ma mb rfl,
    (s.getMR ma).add (s.getMR mb), rfl, fun _ hi => BitMatrix.col_add _ _ hi⟩

/-- Settles O33. -/
theorem bmAndMasksTheColumns : Obligations.BmAndMasksTheColumns := by
  intro s md ma smask
  refine ⟨decode_of_registerFields .bmAnd md ma smask rfl,
    (s.getMR ma).bitand (s.vectorOperand smask), rfl, fun i hi b hb => ?_⟩
  rw [BitMatrix.col_bitand _ _ hi, BitVec.getLsbD_and, State.vectorOperand,
    BitVec.getLsbD_setWidth, decide_eq_true hb, Bool.true_and]

/-- Settles O34. -/
theorem bmShlShiftsTheColumnsLeft : Obligations.BmShlShiftsTheColumnsLeft := by
  intro s md ma sn
  refine ⟨decode_of_registerFields .bmShl md ma sn rfl,
    (s.getMR ma).shl (s.getSR sn).toNat, rfl, fun i hi b hb => ?_⟩
  rw [BitMatrix.col_shl _ _ hi, BitMatrix.shiftLeftWord_eq, BitVec.getLsbD_shiftLeft,
    decide_eq_true hb, Bool.true_and, ← decide_not, decide_eq_decide.2 not_lt]

/-- Settles O35: the word has no bit at `W` or above, so zeros enter at the top. -/
theorem bmShrShiftsTheColumnsRight : Obligations.BmShrShiftsTheColumnsRight := by
  intro s md ma sn
  refine ⟨decode_of_registerFields .bmShr md ma sn rfl,
    (s.getMR ma).shr (s.getSR sn).toNat, rfl, fun i hi b _ => ?_⟩
  rw [BitMatrix.col_shr _ _ hi, BitMatrix.shiftRightWord_eq, BitVec.getLsbD_ushiftRight,
    Nat.add_comm]
  by_cases hlt : b + (s.getSR sn).toNat < s.width.bits
  · simp [hlt]
  · rw [BitVec.getLsbD_of_ge _ _ (not_lt.1 hlt), Bool.and_false]

/-- Settles O36: repeated squaring is `n`-fold composition. -/
theorem bmPowComposesNTimes : Obligations.BmPowComposesNTimes := by
  intro s md ma sn
  refine ⟨decode_of_registerFields .bmPow md ma sn rfl, ?_⟩
  rw [exec_bmPow, BitMatrix.pow_eq_iterate]

/-- Settles O37. -/
theorem bmEqComparesAllColumns : Obligations.BmEqComparesAllColumns := by
  intro s sd ma mb
  refine ⟨decode_of_registerFields .bmEq sd ma mb rfl, fun hall => ?_, fun ⟨i, hi, hne⟩ => ?_⟩
  · rw [exec_bmEq, if_pos ((BitMatrix.eq_iff _ _).2 hall)]
  · rw [exec_bmEq, if_neg fun heq => hne ((BitMatrix.eq_iff _ _).1 heq i hi)]

end Sys2Proof.Machine
end

section
/-! The functions of the modular unit (R161 to R169) and their laws (R171 to R176). A value of a
loop is pinned down by two facts: it is reduced, and its class modulo the modulus, which is followed
in `ZMod m` through the products of the loop. -/

namespace Sys2Proof.Machine

/-! ### Powers by repeated squaring -/

/-- The loop multiplies at least once when the exponent is not 0, so its value has every property
that all products have. -/
theorem squaringLoop_induction {α : Type} {mul : α → α → α} {p : α → Prop}
    (hmul : ∀ x y, p (mul x y)) :
    ∀ (rounds e : Nat) (result base : α), bitLength e ≤ rounds → (e = 0 → p result) →
      p (squaringLoop mul rounds e result base) := by
  intro rounds
  induction rounds with
  | zero =>
    intro e result base hlen hp
    refine hp (by_contra fun he => ?_)
    rw [bitLength_pos he] at hlen
    omega
  | succ rounds ih =>
    intro e result base hlen hp
    by_cases he : e = 0
    · rw [squaringLoop, if_pos he]
      exact hp he
    · rw [bitLength_pos he] at hlen
      rw [squaringLoop, if_neg he]
      refine ih _ _ _ (by omega) fun hhalf => ?_
      rw [if_pos (by omega)]
      exact hmul result base

/-- The class of `pow_mod`, for every exponent and modulus. -/
theorem cast_powMod (base n m : Nat) : (powMod base n m : ZMod m) = (base : ZMod m) ^ n := by
  obtain ⟨hpow, -⟩ := powerBySquaring_map (fun x y => mulMod x y m) (Nat.cast : Nat → ZMod m)
    (fun _ => True) (fun _ _ _ _ => trivial)
    (fun x y _ _ => by rw [mulMod, ZMod.natCast_mod, Nat.cast_mul]) 1 base n trivial trivial
  rw [powMod, hpow, Nat.cast_one, one_mul]

theorem powMod_mod (base n m : Nat) : powMod base n m % m = base ^ n % m :=
  (ZMod.natCast_eq_natCast_iff' _ _ _).1 (by rw [cast_powMod, Nat.cast_pow])

theorem powMod_zero (base m : Nat) : powMod base 0 m = 1 := rfl

/-- The closed form of R164: the initial 1 is reduced by the first product. -/
theorem powMod_of_ne_zero (base m : Nat) {n : Nat} (hn : n ≠ 0) :
    powMod base n m = base ^ n % m := by
  have hreduced : powMod base n m % m = powMod base n m :=
    squaringLoop_induction (p := fun x => x % m = x) (fun _ _ => Nat.mod_mod _ _)
      _ n 1 base le_rfl fun h => absurd h hn
  rw [← hreduced, powMod_mod]

theorem wrappingPow_eq_powMod (N base n : Nat) : wrappingPow N base n = powMod base n (2 ^ N) := rfl

/-- The closed form of R165: at the natural modulus the initial 1 is reduced already. -/
theorem wrappingPow_eq {N : Nat} (hN : 0 < N) (base n : Nat) :
    wrappingPow N base n = base ^ n % 2 ^ N := by
  rw [wrappingPow_eq_powMod]
  by_cases hn : n = 0
  · rw [hn, powMod_zero, pow_zero, Nat.mod_eq_of_lt (Nat.one_lt_two_pow hN.ne')]
  · exact powMod_of_ne_zero base _ hn

theorem repeatedMulMod_succ (base m n : Nat) :
    repeatedMulMod base m (n + 1) = base ^ (n + 1) % m := by
  induction n with
  | zero => rw [repeatedMulMod, repeatedMulMod, mulMod, one_mul, zero_add, pow_one]
  | succ n ih => rw [repeatedMulMod, ih, mulMod, Nat.mod_mul_mod, ← pow_succ]

/-- Settles O53: both are the unreduced 1 for no factor, and the reduced power otherwise. -/
theorem powModIsRepeatedMulMod : Obligations.PowModIsRepeatedMulMod := by
  intro base n m _
  cases n with
  | zero => rfl
  | succ n => rw [powMod_of_ne_zero base m n.succ_ne_zero, repeatedMulMod_succ]

/-- Settles O55. -/
theorem wrappingPowIsPowModAtTheNaturalModulus :
    Obligations.WrappingPowIsPowModAtTheNaturalModulus :=
  fun N base n hN _ => ⟨wrappingPow_eq hN base n, wrappingPow_eq_powMod N base n,
    Nat.pow_lt_pow_right one_lt_two (by omega)⟩

/-! ### The two algorithms of `mul_mod` -/

/-- The sum of two reduced numbers as R162 reduces it, by the distance of one from the modulus. -/
theorem add_mod_by_distance {x y m : Nat} (hx : x < m) (hy : y < m) :
    (if m - y ≤ x then x - (m - y) else x + y) = (x + y) % m := by
  split
  case isTrue h => rw [Nat.mod_eq_sub_mod (by omega), Nat.mod_eq_of_lt] <;> omega
  case isFalse h => rw [Nat.mod_eq_of_lt (by omega)]

/-- A round of the loop of R162, on reduced numbers. -/
theorem doublingLoop_succ {m bw result : Nat} (rounds aw : Nat) (hb : bw < m) (hr : result < m) :
    doublingLoop m (rounds + 1) aw bw result =
      if aw = 0 then result
      else doublingLoop m rounds (aw / 2) ((bw + bw) % m)
        (if aw % 2 = 1 then (result + bw) % m else result) := by
  rw [doublingLoop, add_mod_by_distance hb hb, add_mod_by_distance hr hb]

theorem doublingLoop_lt {m : Nat} (rounds : Nat) :
    ∀ aw bw result : Nat, bw < m → result < m → doublingLoop m rounds aw bw result < m := by
  induction rounds with
  | zero => exact fun _ _ _ _ hr => hr
  | succ rounds ih =>
    intro aw bw result hb hr
    have hm : 0 < m := by omega
    rw [doublingLoop_succ rounds aw hb hr]
    split
    · exact hr
    · refine ih _ _ _ (Nat.mod_lt _ hm) ?_
      split
      · exact Nat.mod_lt _ hm
      · exact hr

/-- With enough rounds the loop of R162 adds `aw * bw`. -/
theorem cast_doublingLoop {m : Nat} (rounds : Nat) :
    ∀ aw bw result : Nat, bitLength aw ≤ rounds → bw < m → result < m →
      (doublingLoop m rounds aw bw result : ZMod m) = result + aw * bw := by
  induction rounds with
  | zero =>
    intro aw bw result hlen _ _
    have haw : aw = 0 := by_contra fun h => by rw [bitLength_pos h] at hlen; omega
    simp [doublingLoop, haw]
  | succ rounds ih =>
    intro aw bw result hlen hb hr
    have hm : 0 < m := by omega
    rw [doublingLoop_succ rounds aw hb hr]
    by_cases haw : aw = 0
    · simp [haw]
    · rw [bitLength_pos haw] at hlen
      have hbits : (aw : ZMod m) = 2 * (aw / 2 : Nat) + (aw % 2 : Nat) := by
        exact_mod_cast congrArg Nat.cast (Nat.div_add_mod aw 2).symm
      rw [if_neg haw, hbits]
      by_cases hodd : aw % 2 = 1
      · rw [if_pos hodd, ih _ _ _ (by omega) (Nat.mod_lt _ hm) (Nat.mod_lt _ hm), hodd]
        push_cast [ZMod.natCast_mod]
        ring
      · have heven : aw % 2 = 0 := by omega
        rw [if_neg hodd, ih _ _ _ (by omega) (Nat.mod_lt _ hm) hr, heven]
        push_cast [ZMod.natCast_mod]
        ring

theorem mulModByDoubling_eq {m : Nat} (hm : 0 < m) (a b : Nat) :
    mulModByDoubling a b m = a * b % m := by
  have hb : b % m < m := Nat.mod_lt b hm
  have hclass : (mulModByDoubling a b m : ZMod m) = (a * b : Nat) := by
    rw [mulModByDoubling, cast_doublingLoop _ a _ 0 le_rfl hb hm]
    push_cast [ZMod.natCast_mod]
    ring
  rw [← (ZMod.natCast_eq_natCast_iff' _ _ _).1 hclass]
  exact (Nat.mod_eq_of_lt (doublingLoop_lt _ a _ 0 hb hm)).symm

/-- The product of two words fits `2N` bits, and the remainder fits `N` (R163). -/
theorem toNat_mulModByWidening {N : Nat} (a b : BitVec N) {m : BitVec N} (hm : 0 < m.toNat) :
    (mulModByWidening N a b m).toNat = a.toNat * b.toNat % m.toNat := by
  have hwiden (x : BitVec N) : (x.setWidth (2 * N)).toNat = x.toNat :=
    BitVec.toNat_setWidth_of_le (by omega)
  have hproduct : a.toNat * b.toNat < 2 ^ (2 * N) := by
    rw [two_mul, pow_add]
    exact Nat.mul_lt_mul'' a.isLt b.isLt
  have hrem : a.toNat * b.toNat % m.toNat < 2 ^ N := (Nat.mod_lt _ hm).trans m.isLt
  rw [mulModByWidening, BitVec.toNat_setWidth, BitVec.toNat_umod, BitVec.toNat_mul, hwiden, hwiden,
    hwiden, Nat.mod_eq_of_lt hproduct, Nat.mod_eq_of_lt hrem]

/-- Settles O52. -/
theorem mulModAlgorithmsComputeTheSameFunction :
    Obligations.MulModAlgorithmsComputeTheSameFunction :=
  ⟨fun a b _ hm => mulModByDoubling_eq hm a b,
    fun rounds aw bw result _ hb hr => doublingLoop_lt rounds aw bw result hb hr,
    fun _ a b _ hm => toNat_mulModByWidening a b hm⟩

/-! ### The geometric series -/

/-- Halving a geometric sum: `1 + t` factors out of an even number of terms, and the last term of an
odd number is left over (R167). -/
theorem geom_sum_halve {R : Type} [CommSemiring R] (t : R) (k : Nat) :
    ∑ i ∈ Finset.range k, t ^ i =
      (1 + t) * ∑ i ∈ Finset.range (k / 2), (t * t) ^ i + if k % 2 = 1 then t ^ (k - 1) else 0 := by
  have heven (j : Nat) :
      ∑ i ∈ Finset.range (2 * j), t ^ i = (1 + t) * ∑ i ∈ Finset.range j, (t * t) ^ i := by
    induction j with
    | zero => simp
    | succ j ih =>
      rw [Nat.mul_succ, Finset.sum_range_succ, Finset.sum_range_succ, ih, Finset.sum_range_succ]
      ring
  by_cases hodd : k % 2 = 1
  · obtain ⟨j, rfl⟩ : ∃ j, k = 2 * j + 1 := ⟨k / 2, by omega⟩
    have hhalf : (2 * j + 1) / 2 = j := by omega
    rw [if_pos hodd, Finset.sum_range_succ, heven, hhalf, Nat.add_sub_cancel]
  · obtain ⟨j, rfl⟩ : ∃ j, k = 2 * j := ⟨k / 2, by omega⟩
    have hhalf : 2 * j / 2 = j := by omega
    rw [if_neg hodd, heven, hhalf, add_zero]

/-- The loop of R167 with enough rounds: `mult` times the sum of the `k` terms is added. -/
theorem geomLoop_eq (N : Nat) (rounds : Nat) :
    ∀ k t mult result : Nat, 0 < k → bitLength k ≤ rounds + 1 →
      geomLoop N rounds k t mult result =
        (result + mult * ∑ i ∈ Finset.range k, t ^ i) % 2 ^ N := by
  induction rounds with
  | zero =>
    intro k t mult result hk hlen
    have hk1 : k = 1 := by
      by_contra hne
      rw [bitLength_pos hk.ne', bitLength_pos (by omega)] at hlen
      omega
    simp [geomLoop, hk1]
  | succ rounds ih =>
    intro k t mult result hk hlen
    rw [geomLoop]
    split
    case isFalse h =>
      have hk1 : k = 1 := by omega
      simp [hk1]
    case isTrue h =>
      rw [bitLength_pos hk.ne'] at hlen
      rw [ih _ _ _ _ (by omega) (by omega), ← ZMod.natCast_eq_natCast_iff']
      push_cast [ZMod.natCast_mod]
      rw [geom_sum_halve (t : ZMod (2 ^ N)) k]
      by_cases hodd : k % 2 = 1
      · rw [if_pos hodd, if_pos hodd]
        push_cast [ZMod.natCast_mod, wrappingPow_eq_powMod, cast_powMod]
        ring
      · rw [if_neg hodd, if_neg hodd]
        ring

/-- The closed form of R166, for every number of terms. -/
theorem wrappingGeomSeries_eq (N r n : Nat) :
    wrappingGeomSeries N r n = (∑ i ∈ Finset.range n, r ^ i) % 2 ^ N := by
  rw [wrappingGeomSeries]
  split
  case isTrue hn => rw [hn, Finset.sum_range_zero, Nat.zero_mod]
  case isFalse hn =>
    rw [geomLoop_eq N _ n r 1 0 (Nat.pos_of_ne_zero hn) (by omega), one_mul, zero_add]

theorem naiveGeomSeries_eq {N : Nat} (hN : 0 < N) (r n : Nat) :
    naiveGeomSeries N r n = (∑ i ∈ Finset.range n, r ^ i) % 2 ^ N := by
  induction n with
  | zero => rfl
  | succ n ih =>
    rw [naiveGeomSeries, ih, wrappingPow_eq hN, ← Nat.add_mod, Finset.sum_range_succ]

/-- Settles O54: both are the reduced sum, and the sum of one more term is 1 and `r` times the
sum. -/
theorem geomSeriesIsTheNaiveLoop : Obligations.GeomSeriesIsTheNaiveLoop := by
  intro N r n hN _
  refine ⟨by rw [wrappingGeomSeries_eq, naiveGeomSeries_eq hN], ?_⟩
  rw [naiveGeomSeries_eq hN, naiveGeomSeries_eq hN, geom_sum_succ, add_comm,
    Nat.add_mod 1 (r * (_ % _)), Nat.mul_mod_mod, ← Nat.add_mod]

/-! ### The canonical remainder -/

theorem modulo_lt (a : Int) {m : Nat} (hm : 0 < m) : modulo a m < m := by
  have := Int.emod_lt_of_pos a (Int.natCast_pos.2 hm)
  rw [modulo]
  omega

theorem dvd_sub_modulo (a : Int) {m : Nat} (hm : 0 < m) : (m : Int) ∣ a - modulo a m := by
  rw [modulo, Int.toNat_of_nonneg (Int.emod_nonneg a (by omega))]
  exact Int.dvd_self_sub_emod

/-- R168 determines the remainder. -/
theorem eq_modulo {a : Int} {m r : Nat} (hr : r < m) (hdvd : (m : Int) ∣ a - r) :
    r = modulo a m := by
  have hmod : a % m = r := by
    rw [Int.emod_eq_emod_iff_emod_sub_eq_zero.2 (Int.emod_eq_zero_of_dvd hdvd)]
    exact Int.emod_eq_of_lt (by omega) (by omega)
  rw [modulo, hmod, Int.toNat_natCast]

theorem modulo_natCast (a m : Nat) : modulo a m = a % m := rfl

/-- Settles O56. -/
theorem moduloIsBelowTheModulus : Obligations.ModuloIsBelowTheModulus := by
  refine fun a m hm => ⟨modulo_lt a hm, fun ha => ?_⟩
  rw [← modulo_natCast, Int.toNat_of_nonneg ha]

theorem moduloByMagnitude_of_nonneg {a : Int} (ha : 0 ≤ a) (m : Nat) :
    moduloByMagnitude a m = a.toNat % m := if_pos ha

/-- `t + 1` of R169 is the magnitude of a negative operand. -/
theorem moduloByMagnitude_of_neg {a : Int} (ha : a < 0) (m : Nat) :
    moduloByMagnitude a m = if a.natAbs % m = 0 then 0 else m - a.natAbs % m := by
  have hmag : (-(a + 1)).toNat + 1 = a.natAbs := by omega
  rw [← hmag]
  exact if_neg ha.not_ge

theorem moduloByMagnitude_lt (a : Int) {m : Nat} (hm : 0 < m) : moduloByMagnitude a m < m := by
  by_cases ha : 0 ≤ a
  · rw [moduloByMagnitude_of_nonneg ha]
    exact Nat.mod_lt _ hm
  · rw [moduloByMagnitude_of_neg (not_le.1 ha)]
    split <;> omega

theorem dvd_sub_moduloByMagnitude (a : Int) {m : Nat} (hm : 0 < m) :
    (m : Int) ∣ a - moduloByMagnitude a m := by
  by_cases ha : 0 ≤ a
  · rw [moduloByMagnitude_of_nonneg ha, ← modulo_natCast, Int.toNat_of_nonneg ha]
    exact dvd_sub_modulo a hm
  · rw [moduloByMagnitude_of_neg (not_le.1 ha)]
    have hlt := Nat.mod_lt a.natAbs hm
    have hdiv : (a.natAbs : Int) = m * (a.natAbs / m : Nat) + (a.natAbs % m : Nat) := by
      exact_mod_cast (Nat.div_add_mod a.natAbs m).symm
    split
    case isTrue h => exact ⟨-(a.natAbs / m : Nat), by rw [mul_neg]; omega⟩
    case isFalse h => exact ⟨-(a.natAbs / m : Nat) - 1, by rw [mul_sub, mul_neg]; omega⟩

/-- Settles O57: the algorithm's value is below the modulus and differs from `a` by a multiple of
it, which determines it. -/
theorem moduloByMagnitudeIsTheCanonicalRemainder :
    Obligations.ModuloByMagnitudeIsTheCanonicalRemainder := fun a _ hm =>
  have hlt := moduloByMagnitude_lt a hm
  have hdvd := dvd_sub_moduloByMagnitude a hm
  ⟨eq_modulo hlt hdvd, hlt, hdvd⟩

/-! ### Jumping ahead -/

/-- `n` affine updates, up to a multiple of the modulus. -/
theorem iterate_affine_mod (a c x m n : Nat) :
    (fun y => (a * y + c) % m)^[n] x % m =
      (a ^ n * x + c * ∑ i ∈ Finset.range n, a ^ i) % m := by
  induction n with
  | zero => simp
  | succ n ih =>
    have hstep : a * (a ^ n * x + c * ∑ i ∈ Finset.range n, a ^ i) + c =
        a ^ (n + 1) * x + c * ∑ i ∈ Finset.range (n + 1), a ^ i := by
      rw [geom_sum_succ]
      ring
    rw [Function.iterate_succ_apply', Nat.mod_mod, Nat.add_mod, Nat.mul_mod, ih, ← Nat.mul_mod,
      ← Nat.add_mod, hstep]

/-- The value itself: it is reduced by the last update, and by hypothesis if there is none. -/
theorem iterate_affine {x m n : Nat} (a c : Nat) (h : x < m ∨ 0 < n) :
    (fun y => (a * y + c) % m)^[n] x = (a ^ n * x + c * ∑ i ∈ Finset.range n, a ^ i) % m := by
  rw [← iterate_affine_mod]
  cases n with
  | zero =>
    have hx : x < m := by omega
    exact (Nat.mod_eq_of_lt hx).symm
  | succ n => rw [Function.iterate_succ_apply', Nat.mod_mod]

theorem mulMod_powMod (a x m n : Nat) : mulMod (powMod a n m) x m = a ^ n * x % m := by
  rw [mulMod, Nat.mul_mod, powMod_mod, ← Nat.mul_mod]

/-- Settles O58. A multiplicative update is the affine one with `c = 0`. -/
theorem jumpAheadIsNSingleUpdates : Obligations.JumpAheadIsNSingleUpdates := by
  refine ⟨fun N a c x n hN _ hx => ?_, fun a x m n _ h => ?_,
    fun a x m n _ => mulMod_powMod a x m n⟩
  · rw [iterate_affine a c (.inl hx), wrappingPow_eq hN, wrappingGeomSeries_eq,
      Nat.add_mod (_ % _ * x), Nat.mod_mul_mod, Nat.mul_mod_mod, ← Nat.add_mod]
  · rw [mulMod_powMod]
    simpa using iterate_affine a 0 h

end Sys2Proof.Machine
end

section
/-! The five commands of the modular unit (R179 to R184): the word of each, and what it writes in
exact arithmetic on its operands. -/

namespace Sys2Proof.Machine

/-- The word of a command that names one width and registers (formats A2 and A3 of R82), as a
number. -/
theorem decode_of_widthFields {i : Instr} (o : Opcode) (n : Width) (d a b c : Fin 16)
    (h : i.fields = { Fields.blank o with
      sz := n.code, rd := registerField d, ra := registerField a, rb := registerField b,
      rc := registerField c }) :
    decode (BitVec.ofNat 32 (0x04000000 * o.code.toNat + 0x800000 * n.code.toNat +
      0x1000 * d.val + 0x100 * a.val + 0x10 * b.val + c.val)) = .ok i := by
  rw [decode_eq_ok_iff, encode, h]
  rfl

/-- The word of MA.MODULO (format AM of R82), as a number. -/
theorem decode_maModulo (n a : Width) (sg : Signedness) (sd sa sm : SReg) :
    decode (BitVec.ofNat 32 (0x50000000 + 0x800000 * n.code.toNat + 0x100000 * a.code.toNat +
      0x80000 * sg.code.toNat + 0x1000 * sd.val + 0x100 * sa.val + 0x10 * sm.val)) =
      .ok (.maModulo n a sg sd sa sm) := by
  rw [decode_eq_ok_iff]
  rfl

theorem State.modularOperand_eq (s : State) (n : Width) (r : SReg) :
    s.modularOperand n r = (s.getSR r).toNat % 2 ^ n.bits :=
  BitVec.toNat_setWidth ..

theorem State.modularOperand_lt (s : State) (n : Width) (r : SReg) :
    s.modularOperand n r < 2 ^ n.bits :=
  BitVec.isLt _

/-- The two's complement reading of the dividend, from its low `A` bits (R85). -/
theorem State.dividendOperand_eq (s : State) (a : Width) (sg : Signedness) (r : SReg) :
    s.dividendOperand a sg r =
      if sg = .signed ∧ 2 ^ (a.bits - 1) ≤ (s.getSR r).toNat % 2 ^ a.bits then
        (((s.getSR r).toNat % 2 ^ a.bits : Nat) : Int) - 2 ^ a.bits
      else (((s.getSR r).toNat % 2 ^ a.bits : Nat) : Int) := by
  cases sg with
  | unsigned => rw [if_neg (by simp), dividendOperand, BitVec.toNat_setWidth]
  | signed =>
    have htop : 2 ^ a.bits = 2 * 2 ^ (a.bits - 1) := by
      rw [← pow_succ', Nat.sub_add_cancel a.bits_pos]
    rw [dividendOperand, BitVec.toInt_eq_toNat_cond, BitVec.toNat_setWidth]
    by_cases hneg : 2 ^ (a.bits - 1) ≤ (s.getSR r).toNat % 2 ^ a.bits
    · rw [if_neg (by omega), if_pos ⟨rfl, hneg⟩, Nat.cast_pow, Nat.cast_ofNat]
    · rw [if_pos (by omega), if_neg fun h => hneg h.2]

/-- A result that is an `N`-bit number is the same number in 128 bits (R85). -/
theorem modularResult_eq {n : Width} {v : Nat} (h : v < 2 ^ n.bits) :
    modularResult n v = BitVec.ofNat 128 v := by
  apply BitVec.eq_of_toNat_eq
  rw [modularResult, BitVec.toNat_setWidth, BitVec.toNat_ofNat, BitVec.toNat_ofNat,
    Nat.mod_eq_of_lt h]

/-- A remainder by a modulus operand that is not 0 is an `N`-bit number. -/
theorem modularResult_of_lt_modulus {s : State} {n : Width} {sm : SReg} {v : Nat}
    (h : v < s.modularOperand n sm) : modularResult n v = BitVec.ofNat 128 v :=
  modularResult_eq (h.trans (s.modularOperand_lt n sm))

theorem exec_of_modulus_eq_zero {i : Instr} {s : State} (h : s.modulusOf i = some 0) :
    exec i s = .fault .zeroModulus := by
  obtain ⟨-, hfault⟩ | ⟨hne, -⟩ := exec_cases i s
  · exact hfault
  · exact absurd h hne

theorem exec_maMulmod {n : Width} (sd sa sb : SReg) {sm : SReg} {s : State}
    (hm : s.modularOperand n sm ≠ 0) :
    exec (.maMulmod n sd sa sb sm) s = .next (s.setSR sd (modularResult n
      (mulMod (s.modularOperand n sa) (s.modularOperand n sb) (s.modularOperand n sm)))) :=
  if_neg hm

theorem exec_maPowmod {n : Width} (sd sbase sn : SReg) {sm : SReg} {s : State}
    (hm : s.modularOperand n sm ≠ 0) :
    exec (.maPowmod n sd sbase sn sm) s = .next (s.setSR sd (modularResult n
      (powMod (s.modularOperand n sbase) (s.getSR sn).toNat (s.modularOperand n sm)))) :=
  if_neg hm

theorem exec_maModulo {n : Width} (a : Width) (sg : Signedness) (sd sa : SReg) {sm : SReg}
    {s : State} (hm : s.modularOperand n sm ≠ 0) :
    exec (.maModulo n a sg sd sa sm) s = .next (s.setSR sd (modularResult n
      (modulo (s.dividendOperand a sg sa) (s.modularOperand n sm)))) :=
  if_neg hm

theorem exec_maWpow (n : Width) (sd sbase sn : SReg) (s : State) :
    exec (.maWpow n sd sbase sn) s = .next (s.setSR sd (modularResult n
      (wrappingPow n.bits (s.modularOperand n sbase) (s.getSR sn).toNat))) := rfl

theorem exec_maWgeom (n : Width) (sd sr sn : SReg) (s : State) :
    exec (.maWgeom n sd sr sn) s = .next (s.setSR sd (modularResult n
      (wrappingGeomSeries n.bits (s.modularOperand n sr) (s.getSR sn).toNat))) := rfl

/-- Settles O38. -/
theorem maMulmodMultipliesExactlyAndReduces : Obligations.MaMulmodMultipliesExactlyAndReduces := by
  intro s n sd sa sb sm
  simp only [← State.modularOperand_eq]
  refine ⟨decode_of_widthFields .maMulmod n sd sa sb sm rfl, fun hm => ?_, fun hm =>
    exec_of_modulus_eq_zero (congrArg some hm)⟩
  rw [exec_maMulmod sd sa sb hm, mulMod,
    modularResult_of_lt_modulus (Nat.mod_lt _ (Nat.pos_of_ne_zero hm))]

/-- Settles O39: with no factor the initial 1 is written unreduced. -/
theorem maPowmodRaisesAndReduces : Obligations.MaPowmodRaisesAndReduces := by
  intro s n sd sbase sn sm
  simp only [← State.modularOperand_eq]
  refine ⟨decode_of_widthFields .maPowmod n sd sbase sn sm rfl, fun hm hn => ?_, fun hm hn => ?_,
    fun hm => exec_of_modulus_eq_zero (congrArg some hm)⟩
  · rw [exec_maPowmod sd sbase sn hm, powMod_of_ne_zero _ _ hn,
      modularResult_of_lt_modulus (Nat.mod_lt _ (Nat.pos_of_ne_zero hm))]
  · rw [exec_maPowmod sd sbase sn hm, hn, powMod_zero,
      modularResult_eq (Nat.one_lt_two_pow n.bits_pos.ne')]
    rfl

/-- Settles O40. -/
theorem maWpowRaisesAndWraps : Obligations.MaWpowRaisesAndWraps := by
  intro s n sd sbase sn
  refine ⟨decode_of_widthFields .maWpow n sd sbase sn 0 rfl, ?_⟩
  rw [exec_maWpow, wrappingPow_eq n.bits_pos, modularResult_eq (Nat.mod_lt _ (Nat.two_pow_pos _)),
    State.modularOperand_eq]

/-- Settles O41. -/
theorem maWgeomSumsTheSeriesAndWraps : Obligations.MaWgeomSumsTheSeriesAndWraps := by
  intro s n sd sr sn
  refine ⟨decode_of_widthFields .maWgeom n sd sr sn 0 rfl, ?_⟩
  rw [exec_maWgeom, wrappingGeomSeries_eq, modularResult_eq (Nat.mod_lt _ (Nat.two_pow_pos _)),
    State.modularOperand_eq]

/-- Settles O42: the value of `modulo` is the witness. -/
theorem maModuloGivesTheCanonicalRemainder : Obligations.MaModuloGivesTheCanonicalRemainder := by
  intro s n a sg sd sa sm
  rw [← State.modularOperand_eq, ← State.dividendOperand_eq]
  refine ⟨decode_maModulo n a sg sd sa sm, fun hm => ?_, fun hm =>
    exec_of_modulus_eq_zero (congrArg some hm)⟩
  have hlt := modulo_lt (s.dividendOperand a sg sa) (Nat.pos_of_ne_zero hm)
  refine ⟨_, ?_, hlt, dvd_sub_modulo _ (Nat.pos_of_ne_zero hm)⟩
  rw [exec_maModulo a sg sd sa hm, modularResult_of_lt_modulus hlt]

end Sys2Proof.Machine
end

section
/-! The one exception, IllegalCommand, as a whole step (R201). -/

namespace Sys2Proof.Machine

/-- A step that serves a write of an illegal word to CMD. -/
theorem step_of_illegal_command {s : State} {rest : List HostEvent} {cw : Word}
    {why : IllegalReason} (hin : s.inbox = .write (.bits 32) 0x0008 cw :: rest)
    (hd : decode cw = .error why) :
    step s = .next ((({ s with inbox := rest } : State).raiseIllegal cw).respond .error) :=
  (step_of_inbox hin).trans (State.issue_of_error _ hd)

/-- Settles O7: the step that serves an illegal word raises IllegalCommand and answers ERROR, and a
read of 0x000C shows FCMD. -/
theorem illegalCommandIsRecordedAndChangesNothingElse :
    Obligations.IllegalCommandIsRecordedAndChangesNothingElse :=
  ⟨fun _ _ _ _ hin hd => step_of_illegal_command hin hd, State.hostRead_fcmd⟩

end Sys2Proof.Machine
end

section
/-! When a command completes (R170, R238), and what it leaves unchanged when it does (R234). -/

namespace Sys2Proof.Machine

/-- `t` is `s` with one register, the one named, written whole. -/
inductive Writes (s : State) : RegName → State → Prop where
  | scalar (d : SReg) (v : Scalar) : Writes s (.scalar d) (s.setSR d v)
  | matrix (d : MReg) (M : BitMatrix s.width.bits) : Writes s (.matrix d) (s.setMR d M)

/-- A command with its operands defined completes, and writes its destination. -/
theorem exists_exec_eq_next {i : Instr} {s : State} (h : s.operandsDefined i) :
    ∃ t, exec i s = .next t ∧ Writes s (destinationOf i) t := by
  obtain ⟨hzero, -⟩ | ⟨-, ⟨d, v, hdest, he⟩ | ⟨d, M, hdest, he⟩⟩ := exec_cases i s
  · exact absurd hzero h
  · exact ⟨_, he, hdest ▸ .scalar d v⟩
  · exact ⟨_, he, hdest ▸ .matrix d M⟩

/-- A command without its operands defined has a modulus operand of 0, and stops (R170). -/
theorem exec_of_not_operandsDefined {i : Instr} {s : State} (h : ¬ s.operandsDefined i) :
    exec i s = .fault .zeroModulus :=
  exec_of_modulus_eq_zero (not_not.mp h)

/-- Settles O22: with its operands defined a command completes, and without them it stops; the two
outcomes exclude each other, and neither is a refusal. -/
theorem commandsCompleteExactlyWithoutAZeroModulus :
    Obligations.CommandsCompleteExactlyWithoutAZeroModulus := by
  intro i s
  by_cases hdef : s.operandsDefined i
  · obtain ⟨t, he, -⟩ := exists_exec_eq_next hdef
    simp [hdef, he]
  · simp [hdef, exec_of_not_operandsDefined hdef]

theorem writes_of_exec_eq_next {i : Instr} {s t : State} (h : exec i s = .next t) :
    Writes s (destinationOf i) t := by
  by_cases hdef : s.operandsDefined i
  · obtain ⟨u, he, hw⟩ := exists_exec_eq_next hdef
    cases he.symm.trans h
    exact hw
  · cases (exec_of_not_operandsDefined hdef).symm.trans h

theorem Writes.agreeOn_of_ne {s t : State} {d r : RegName} (h : Writes s d t) (hne : d ≠ r) :
    agreeOn t s r := by
  cases h with
  | scalar d v =>
    cases r with
    | scalar r => exact (s.getSR_setSR d r v).trans (if_neg fun heq => hne (congrArg _ heq))
    | matrix r => exact s.mrSlot_setSR d r v
  | matrix d M =>
    cases r with
    | scalar r => exact s.getSR_setMR d r M
    | matrix r =>
      exact fun k => (s.mrSlot_setMR d r M k).trans (if_neg fun heq => hne (congrArg _ heq))

/-- The register of a file that a location is a word of. -/
def Location.register {W : Nat} : Location W → Option RegName
  | .sr r _ => some (.scalar r)
  | .mr r _ _ => some (.matrix r)
  | .id | .status | .cmd | .fcmd | .colbuf .. | .unmapped => none

/-- The words of a register lie in its block (R51). -/
theorem inBlockOf_of_locate_register {W : Nat} {addr : WindowAddr} {d : RegName}
    (h4 : addr.toNat % 4 = 0) (h : (locate W addr).register = some d) :
    inBlockOf addr.toNat d := by
  rcases locate_cases W addr h4 with
    ⟨hl, -⟩ | ⟨hl, -⟩ | ⟨hl, -⟩ | ⟨hl, -⟩ | ⟨r, j, hl, ha⟩ | ⟨i, j, hl, -⟩ | ⟨r, i, j, hl, ha, hi⟩ |
      ⟨hl, -⟩ <;>
    rw [hl] at h <;> cases h
  · unfold inBlockOf
    omega
  · unfold inBlockOf
    omega

/-- A location of another register, or of none, reads as before a write of `SR[d]`. -/
theorem State.readLocation_setSR (s : State) {d : SReg} (v : Scalar)
    {loc : Location s.width.bits} (h : loc.register ≠ some (.scalar d)) :
    (s.setSR d v).readLocation loc = s.readLocation loc := by
  cases loc with
  | sr r j =>
    have hne : d ≠ r := by
      rintro rfl
      exact h rfl
    exact congrArg (fun x => Response.okayData (slotWord x j))
      ((s.getSR_setSR d r v).trans (if_neg hne))
  | _ => rfl

/-- The same of a write of `MR[d]`. -/
theorem State.readLocation_setMR (s : State) {d : MReg} (M : BitMatrix s.width.bits)
    {loc : Location s.width.bits} (h : loc.register ≠ some (.matrix d)) :
    (s.setMR d M).readLocation loc = s.readLocation loc := by
  cases loc with
  | mr r i j =>
    have hne : d ≠ r := by
      rintro rfl
      exact h rfl
    exact congrArg (fun X : BitMatrix s.width.bits => Response.okayData (slotWord (X.col i.val) j))
      ((s.getMR_setMR d r M).trans (if_neg hne))
  | _ => rfl

/-- A read outside the block of the written register answers as before. -/
theorem Writes.hostRead_eq {s t : State} {d : RegName} (h : Writes s d t) (size : AccessSize)
    {addr : WindowAddr} (hout : ¬ inBlockOf addr.toNat d) :
    t.hostRead size addr = s.hostRead size addr := by
  by_cases hok : accessShapeOk size addr = true
  · have hloc : (locate s.width.bits addr).register ≠ some d := fun hd =>
      hout (inBlockOf_of_locate_register (aligned_of_accessShapeOk hok) hd)
    rw [State.hostRead, State.hostRead, if_pos hok, if_pos hok]
    cases h with
    | scalar d v => exact s.readLocation_setSR v hloc
    | matrix d M => exact s.readLocation_setMR M hloc
  · rw [State.hostRead, State.hostRead, if_neg hok, if_neg hok]

/-- Settles O23: a command that completes has written its destination, which leaves the rest of the
state and of the window. -/
theorem aCommandWritesItsDestinationAndNothingElse :
    Obligations.ACommandWritesItsDestinationAndNothingElse := by
  refine ⟨fun i s t h => ?_, fun s cw why hd => s.issue_of_error hd⟩
  have hw := writes_of_exec_eq_next h
  have hregs : ∀ r, destinationOf i ≠ r → agreeOn t s r := fun _ => hw.agreeOn_of_ne
  have hreads : ∀ size addr, ¬ inBlockOf addr.toNat (destinationOf i) →
      t.hostRead size addr = s.hostRead size addr := fun size _ => hw.hostRead_eq size
  generalize destinationOf i = dest at *
  cases hw with
  | scalar d v => exact ⟨⟨v, rfl⟩, rfl, rfl, rfl, s.colbufSlot_setSR d v, hregs, hreads⟩
  | matrix d M => exact ⟨⟨M, rfl⟩, rfl, rfl, rfl, s.colbufSlot_setMR d M, hregs, hreads⟩

end Sys2Proof.Machine
end

section
/-! Runs to the end of the host's events (R60, R238): one event a step, until none is left or a zero
modulus stops the run (R170). -/

namespace Sys2Proof.Machine

/-- The word of a command that has a modulus operand issues it when written to CMD. -/
theorem issuesModulusCommand_of_modulusOf {s : State} {i : Instr} {m : Nat} {size : AccessSize}
    {cw : Word} (hd : decode cw = .ok i) (hm : s.modulusOf i = some m) :
    issuesModulusCommand (.write size cmdAddr cw) := by
  refine ⟨rfl, ?_⟩
  cases i with
  | maMulmod n sd sa sb sm => exact ⟨n, sd, sa, sb, sm, n, .unsigned, .inl hd⟩
  | maPowmod n sd sbase sn sm => exact ⟨n, sd, sbase, sn, sm, n, .unsigned, .inr (.inl hd)⟩
  | maModulo n a sg sd sa sm => exact ⟨n, sd, sa, sa, sm, a, sg, .inr (.inr hd)⟩
  | _ => cases hm

/-- A word written to CMD is served, or is a command that finds its modulus operand 0. -/
theorem State.issue_serves_or_stops (s : State) (size : AccessSize) (cw : Word) :
    (∃ t, s.issue cw = .next t) ∨
      (s.issue cw = .fault .zeroModulus ∧ issuesModulusCommand (.write size cmdAddr cw)) := by
  rcases s.issue_cases cw with
    ⟨_, _, h⟩ | ⟨i, hd, ⟨hzero, h⟩ | ⟨_, ⟨_, _, _, _, h⟩ | ⟨_, _, _, _, h⟩⟩⟩
  · exact .inl ⟨_, h⟩
  · exact .inr ⟨h, issuesModulusCommand_of_modulusOf hd hzero⟩
  · exact .inl ⟨_, h⟩
  · exact .inl ⟨_, h⟩

/-- The same of every event. -/
theorem State.serve_serves_or_stops (s : State) (event : HostEvent) :
    (∃ t, s.serve event = .next t) ∨
      (s.serve event = .fault .zeroModulus ∧ issuesModulusCommand event) := by
  cases event with
  | read size addr => exact .inl ⟨_, rfl⟩
  | reset cut => exact .inl ⟨_, rfl⟩
  | write size addr v =>
    rw [State.serve]
    rcases s.hostWrite_cases size addr v with
      h | ⟨_, _, h⟩ | ⟨_, _, h⟩ | ⟨_, _, h⟩ | ⟨_, rfl, h⟩
    · exact .inl ⟨_, h⟩
    · exact .inl ⟨_, h⟩
    · exact .inl ⟨_, h⟩
    · exact .inl ⟨_, h⟩
    · rw [h]
      exact s.issue_serves_or_stops size v

/-- As many steps as there are events to come serve them all, with one response for each
transaction. -/
def State.runServesAll (s : State) : Prop :=
  ∃ t, core.run s.inbox.length s = .next t ∧ t.inbox = [] ∧
    t.outbox.length = s.outbox.length + (s.inbox.filter isTransaction).length

theorem State.runServesAll_of_empty {s : State} (h : s.inbox = []) : s.runServesAll :=
  ⟨s, by rw [h]; rfl, h, by rw [h]; rfl⟩

/-- The run from `s` is the step that serves its first event, then the run from there. -/
theorem State.runServesAll_of_step {s t : State} {event : HostEvent} {rest : List HostEvent}
    (hin : s.inbox = event :: rest) (hstep : step s = .next t) (ht : t.runServesAll) :
    s.runServesAll := by
  obtain ⟨hrest, hresponse, hnone⟩ :=
    eachTransactionGetsOneResponseInOrder s t event rest hin hstep
  obtain ⟨u, hrun, hempty, hlen⟩ := ht
  refine ⟨u, ?_, hempty, ?_⟩
  · rw [hin, List.length_cons, run_of_next _ hstep, ← hrest, hrun]
  · rw [hlen, hrest, hin]
    cases htrans : isTransaction event with
    | true =>
      obtain ⟨r, hout⟩ := hresponse htrans
      rw [hout, List.filter_cons_of_pos htrans, List.length_append, List.length_cons]
      exact Nat.add_right_comm ..
    | false =>
      rw [hnone htrans, List.filter_cons_of_neg (by simp [htrans])]

/-- A run serves all its events, or stops at one that issues a command with a modulus. -/
theorem State.runServesAll_or_stops (s : State) :
    s.runServesAll ∨ (core.run s.inbox.length s = .fault Fault.zeroModulus ∧
      ∃ event ∈ s.inbox, issuesModulusCommand event) := by
  induction hin : s.inbox generalizing s with
  | nil => exact .inl (State.runServesAll_of_empty hin)
  | cons event rest ih =>
    rcases State.serve_serves_or_stops { s with inbox := rest } event with
      ⟨t, hserve⟩ | ⟨hserve, hmod⟩
    · have hstep : step s = .next t := (step_of_inbox hin).trans hserve
      obtain ⟨hrest, -, -⟩ := eachTransactionGetsOneResponseInOrder s t event rest hin hstep
      rcases ih t hrest with hall | ⟨hrun, event', hmem, hmod⟩
      · exact .inl (State.runServesAll_of_step hin hstep hall)
      · exact .inr ⟨(run_of_next _ hstep).trans hrun, event', List.mem_cons_of_mem _ hmem, hmod⟩
    · have hstep : step s = .fault .zeroModulus := (step_of_inbox hin).trans hserve
      exact .inr ⟨run_of_fault _ hstep, event, List.mem_cons_self, hmod⟩

/-- Settles O21: the run that stops has issued a command with a modulus. -/
theorem everyRunCompletes : Obligations.EveryRunCompletes := by
  intro s
  rcases s.runServesAll_or_stops with hall | ⟨hrun, event, hmem, hmod⟩
  · exact ⟨.inl hall, fun _ => hall⟩
  · exact ⟨.inr hrun, fun hnone => absurd hmod (hnone event hmem)⟩

end Sys2Proof.Machine
end
